-- ==== Sys2Proof/Word.lean ====
section
/-! DEFINITION. The word types of ECRD (spec 00_scope.md R9): u8, u16 and u32. -/

namespace Sys2Proof

/-- `u8` (R9). An `i8` is the same eight bits, read by `BitVec.toInt` as two's complement. -/
abbrev Byte := BitVec 8

/-- `u16` (R9). -/
abbrev Half := BitVec 16

/-- `u32` (R9). -/
abbrev Word := BitVec 32

end Sys2Proof
end

