-- ==== Sys2Proof/Config.lean ====
section
/-! DEFINITION. What is fixed for a run (spec 00_scope.md R7, R8) and the values the spec leaves open.
A constant with no body is a parameter or a free value: no proof can see which value it is, so a
statement about it holds for every value (assumption log 6, 8, 15). -/

namespace Sys2Proof

/-- How far DATA_CAP lies above 255. Open parameter (R8, D6): 255 ≤ DATA_CAP ≤ 65532 leaves 65278 values. -/
opaque Config.dataCapAbove255 : Fin 65278

/-- DATA_CAP, the size in bytes of the DATA buffer (R8). -/
def Config.dataCap : Nat := Config.dataCapAbove255.val + 255

/-- `n ≤ DATA_CAP`. The first test changes nothing (DATA_CAP is at least 255, R8); it lets the kernel
evaluate the bound for small `n` although DATA_CAP is open. -/
def Config.withinDataCap (n : Nat) : Bool := decide (n ≤ 255) || decide (n ≤ Config.dataCap)

/-- DEV_ADDR, the device address the transport is given with every transaction (R8, D24); opaque to ECRD. -/
opaque Config.devAddr : Nat

/-- CONF_MASK, the confidence bit of palmBits (R8, 42_report_decoder.md R172). Unsafe if the one
example it rests on is wrong (93 U3, assumption log 15). -/
def Config.confMask : Byte := 0x02

/-- Which of the seven bits other than the confidence bit is the palm-reject bit. Open (R8, D25). -/
opaque Config.palmRejectSlot : Fin 7

/-- Which of the six bits left over is the single-sample bit. Open (R8, D25). -/
opaque Config.singleSampleSlot : Fin 6

/-- Slot `k` of the bits 0, 2, 3, 4, 5, 6, 7: every bit but bit 1, the confidence bit. -/
def Config.slotBit (k : Nat) : Nat := if k = 0 then 0 else k + 1

/-- PALM_REJECT_MASK: one bit set, not equal to CONF_MASK (R8). -/
def Config.palmRejectMask : Byte := 1#8 <<< Config.slotBit Config.palmRejectSlot.val

/-- SINGLE_SAMPLE_MASK: one bit set, not equal to CONF_MASK or PALM_REJECT_MASK (R8). No rule reads it. -/
def Config.singleSampleMask : Byte :=
  1#8 <<< Config.slotBit
    (if Config.singleSampleSlot.val < Config.palmRejectSlot.val then Config.singleSampleSlot.val
     else Config.singleSampleSlot.val + 1)

/-- The free value of a buffer byte that nothing has written since the reset that began life `epoch`
(10_state.md R36, 93 U1): one for each life and each host offset. -/
opaque Config.freeByte : (epoch : Nat) → (offset : Nat) → Byte

/-- The free value of a transport response (20_memory.md R58, 93 U5): one for each draw. -/
opaque Config.freeResponse : (draw : Nat) → List Byte

end Sys2Proof
end

