-- ==== Sys2Proof/Syntax.lean ====
section
/-! DEFINITION. The syntax of ECRD: one constructor of `Instr` for each row of spec/opcode_table.json, and
`Encoded`, the kinds of encoding those rows have (30_encoding.md). -/

namespace Sys2Proof

/-- FingerData (10_state.md R30): the record x, y, palmBits. -/
structure FingerData where
  x : Half
  y : Half
  palmBits : Byte
deriving DecidableEq, Repr

/-- `Report` (R30): a tagged sum with exactly four variants. The i8 fields are kept as the raw byte. -/
inductive Report where
  | empty
  | mouse (buttons xDelta yDelta scrollDelta panDelta : Byte)
  | keyboard (modifier : Byte) (keycodes : Vector Byte 6)
  | absolute (contactFlags : Byte) (fingers : Vector FingerData 5) (buttons : Byte)
deriving DecidableEq, Repr

/-- The rows of the opcode table. The first twelve are the commands the host issues (R81). The other
seven are the table's frame and packet forms: the phases the commands are made of (assumption log 3). -/
inductive Instr where
  /-- EMA_WRITE (R100) -/
  | emaWrite
  /-- EMA_READ (R105) -/
  | emaRead
  /-- RD8 (R140) -/
  | rd8
  /-- WR8 #v (R142) -/
  | wr8 (v : Byte)
  /-- RD16 (R144) -/
  | rd16
  /-- DECODE ANY (R160, expected kind 0x00) -/
  | decodeAny
  /-- DECODE MOUSE (R160, expected kind 0x06) -/
  | decodeMouse
  /-- DECODE KEYBOARD (R160, expected kind 0x08) -/
  | decodeKeyboard
  /-- DECODE ABSOLUTE (R160, expected kind 0x09) -/
  | decodeAbsolute
  /-- QVALID #n (R190) -/
  | qvalid (n : Byte)
  /-- QCONTACT #n (R192) -/
  | qcontact (n : Byte)
  /-- QBUTTON #mask (R194) -/
  | qbutton (mask : Byte)
  /-- ema.write_frame (R71): address and payload; the count and the checksum follow from them -/
  | emaWriteFrame (addr : Word) (payload : List Byte)
  /-- ema.read_request (R72): address and requested count -/
  | emaReadRequest (addr : Word) (count : Half)
  /-- ema.read_response (R73): the bytes delivered for a request of `count` payload bytes -/
  | emaReadResponse (count : Half) (bytes : List Byte)
  /-- report.mouse (R77) -/
  | reportMouse (buttons xDelta yDelta scrollDelta panDelta : Byte)
  /-- report.keyboard (R78) -/
  | reportKeyboard (modifier : Byte) (keycodes : Vector Byte 6)
  /-- report.absolute (R79) -/
  | reportAbsolute (contactFlags : Byte) (fingers : Vector FingerData 5) (buttons : Byte)
  /-- report.empty (R76, R165): any other report ID -/
  | reportEmpty (id : Byte)
deriving DecidableEq, Repr

/-- The three kinds of encoding of 30_encoding.md; an EMA frame that ECRD parses is a response, framed
by the count that was requested (R73, 90 C2). -/
inductive Encoded where
  /-- a command word (R80) -/
  | command (w : Word)
  /-- bytes that begin with an EMA preamble (R70 to R72) -/
  | frame (bytes : List Byte)
  /-- the bytes delivered for a request of `count` payload bytes (R73) -/
  | response (count : Half) (bytes : List Byte)
  /-- a RawPacket (R76) -/
  | packet (bytes : List Byte)
deriving DecidableEq, Repr

/-- Is the row a command the host issues by a command word (R81)? -/
def Instr.isCommand : Instr → Bool
  | .emaWrite | .emaRead | .rd8 | .wr8 _ | .rd16 | .decodeAny | .decodeMouse | .decodeKeyboard
  | .decodeAbsolute | .qvalid _ | .qcontact _ | .qbutton _ => true
  | .emaWriteFrame _ _ | .emaReadRequest _ _ | .emaReadResponse _ _ | .reportMouse _ _ _ _ _
  | .reportKeyboard _ _ | .reportAbsolute _ _ _ | .reportEmpty _ => false

end Sys2Proof
end

