-- ==== Sys2Proof/WellFormed.lean ====
section
/-! DEFINITION. Which terms of `Instr` are instructions ECRD can perform. Every command is; a frame or
packet form is within the bounds of 30_encoding.md. -/

namespace Sys2Proof

/-- The report IDs that have a layout (R76). -/
def knownReportId (id : Byte) : Bool := id == 0x06 || id == 0x08 || id == 0x09

/-- The checks, one for each bound the encodings give. -/
def Instr.wellFormed : Instr → Bool
  | .emaWrite | .emaRead | .rd8 | .wr8 _ | .rd16 | .decodeAny | .decodeMouse | .decodeKeyboard
  | .decodeAbsolute | .qvalid _ | .qcontact _ | .qbutton _ => true
  -- "with 0 ≤ n ≤ 255" (R71)
  | .emaWriteFrame _ payload => decide (payload.length ≤ 255)
  -- the requested count is at most DATA_CAP (R85)
  | .emaReadRequest _ count => Config.withinDataCap count.toNat
  -- and at most count + 3 bytes are delivered (R58, R73)
  | .emaReadResponse count bytes =>
      Config.withinDataCap count.toNat && decide (bytes.length ≤ count.toNat + 3)
  | .reportMouse _ _ _ _ _ | .reportKeyboard _ _ | .reportAbsolute _ _ _ => true
  -- Empty is for the IDs that have no layout (R76)
  | .reportEmpty id => !knownReportId id

end Sys2Proof
end

