-- ==== Sys2Proof/Decode.lean ====
section
/-! DEFINITION. The decoder, total on any encoding and rejecting by name, and after it the encoder, both
written from the tables of 30_encoding.md. Byte-order helpers first (00_scope.md R10, R11). -/

namespace Sys2Proof

/-- `le16(lo, hi)` (R10). -/
def le16 (lo hi : Byte) : Half := lo.setWidth 16 ||| (hi.setWidth 16 <<< 8)

/-- Four bytes read little-endian (R53, R54, R70). -/
def le32 (b0 b1 b2 b3 : Byte) : Word :=
  b0.setWidth 32 ||| (b1.setWidth 32 <<< 8) ||| (b2.setWidth 32 <<< 16) ||| (b3.setWidth 32 <<< 24)

/-- `LE2(v)` (R10). -/
def le2Bytes (v : Half) : List Byte := [v.extractLsb' 0 8, v.extractLsb' 8 8]

/-- `LE4(v)` (R10). -/
def le4Bytes (v : Word) : List Byte :=
  [v.extractLsb' 0 8, v.extractLsb' 8 8, v.extractLsb' 16 8, v.extractLsb' 24 8]

/-- `sum8(xs)`, the additive checksum mod 256 (R11). -/
def sum8 (xs : List Byte) : Byte := xs.foldl (fun acc b => acc + b) 0

/-- EMA_SELECTOR (R7). -/
def emaSelector : Byte := 0x09
/-- DIR_READ (R7). -/
def dirRead : Byte := 0x01
/-- DIR_WRITE (R7). -/
def dirWrite : Byte := 0x00

/-- `Preamble(dir, a, c)` (R70). -/
def preamble (dir : Byte) (a : Word) (c : Half) : List Byte :=
  [dir, emaSelector] ++ le4Bytes a ++ le2Bytes c

/-- A list of bytes with its checksum byte appended (R71, R73). -/
def withChecksum (xs : List Byte) : List Byte := xs ++ [sum8 xs]

/-- The write frame of address `a` and payload `p` (R71). -/
def writeFrame (a : Word) (p : List Byte) : List Byte :=
  withChecksum (preamble dirWrite a (BitVec.ofNat 16 p.length) ++ p)

/-- The read request of address `a` and count `c` (R72). -/
def readRequest (a : Word) (c : Half) : List Byte := preamble dirRead a c

/-- Why an encoding is no instruction. -/
inductive DecodeError where
  /-- command word: bits 31:16 are not 0 (R80, R83) -/
  | reservedBits
  /-- command word: an OP the command map does not list (R81, R83) -/
  | unknownOp
  /-- command word: ARG8 must be 0 for this OP (R81, R83) -/
  | argNotZero
  /-- command word: DECODE with a kind other than 0x00, 0x06, 0x08, 0x09 (R81, R83) -/
  | unknownKind
  /-- frame: a direction byte other than 0x00 and 0x01 (R75) -/
  | unknownDirection
  /-- frame: a selector byte other than 0x09 (R75) -/
  | unknownSelector
  /-- frame: a write count above 255 (R71) -/
  | countOver255
  /-- frame: fewer bytes than the preamble, or than its count and checksum, ask for (R74) -/
  | frameTooShort
  /-- packet: not 53 bytes (R76) -/
  | packetSize
deriving DecidableEq, Repr

/-- An instruction of an OP whose ARG8 must be 0 (R83). -/
def whenArgZero (arg : Byte) (i : Instr) : Except DecodeError Instr :=
  if arg = 0 then .ok i else .error .argNotZero

/-- `decodeCmd(w)` (R83), total: an `error` is the spec's Illegal. -/
def decodeCommand (w : Word) : Except DecodeError Instr :=
  let op := w.extractLsb' 0 8
  let arg := w.extractLsb' 8 8
  if w.extractLsb' 16 16 ≠ 0 then .error .reservedBits
  else if op = 0x01 then whenArgZero arg .emaWrite
  else if op = 0x02 then whenArgZero arg .emaRead
  else if op = 0x03 then whenArgZero arg .rd8
  else if op = 0x04 then .ok (.wr8 arg)
  else if op = 0x05 then whenArgZero arg .rd16
  else if op = 0x10 then
    if arg = 0x00 then .ok .decodeAny
    else if arg = 0x06 then .ok .decodeMouse
    else if arg = 0x08 then .ok .decodeKeyboard
    else if arg = 0x09 then .ok .decodeAbsolute
    else .error .unknownKind
  else if op = 0x20 then .ok (.qvalid arg)
  else if op = 0x21 then .ok (.qcontact arg)
  else if op = 0x22 then .ok (.qbutton arg)
  else .error .unknownOp

/-- The payload of a write frame: `n` bytes, then the checksum byte, which is not an operand (assumption
log 4). Answers the instruction and the bytes after the frame. -/
def decodeWritePayload (a : Word) (n : Nat) (bytes : List Byte) :
    Except DecodeError (Instr × List Byte) :=
  match bytes.drop n with
  | _ :: rest => .ok (.emaWriteFrame a (bytes.take n), rest)
  | [] => .error .frameTooShort

/-- The layouts of R70 to R72, read back: the form at the head of `bytes` and the bytes after it. -/
def decodeFrame (bytes : List Byte) : Except DecodeError (Instr × List Byte) :=
  match bytes with
  | dir :: sel :: a0 :: a1 :: a2 :: a3 :: c0 :: c1 :: rest =>
    if sel ≠ emaSelector then .error .unknownSelector
    else if dir = dirRead then .ok (.emaReadRequest (le32 a0 a1 a2 a3) (le16 c0 c1), rest)
    else if dir = dirWrite then
      if 255 < (le16 c0 c1).toNat then .error .countOver255
      else decodeWritePayload (le32 a0 a1 a2 a3) (le16 c0 c1).toNat rest
    else .error .unknownDirection
  | _ => .error .frameTooShort

/-- The bytes delivered for a request of `count` payload bytes (R73); any byte after the first
count + 3 is ignored (R110). -/
def decodeResponse (count : Half) (bytes : List Byte) : Instr :=
  .emaReadResponse count (bytes.take (count.toNat + 3))

/-- `i8`, `u8` and `u16` fields of a packet are read from its bytes by offset (R79, R82). -/
def packetFinger (p : Nat → Byte) (i : Nat) : FingerData :=
  { palmBits := p (4 + 5 * i)
    x := le16 (p (5 + 5 * i)) (p (6 + 5 * i))
    y := le16 (p (7 + 5 * i)) (p (8 + 5 * i)) }

/-- Classification by the report ID at byte 2, and the fields of that layout (R76 to R79, R160). -/
def classifyPacket (p : Nat → Byte) : Report :=
  if p 2 = 0x06 then .mouse (p 3) (p 4) (p 5) (p 6) (p 7)
  else if p 2 = 0x08 then .keyboard (p 3) #v[p 5, p 6, p 7, p 8, p 9, p 10]
  else if p 2 = 0x09 then
    .absolute (p 3)
      #v[packetFinger p 0, packetFinger p 1, packetFinger p 2, packetFinger p 3, packetFinger p 4]
      (p 29)
  else .empty

/-- The packet row that stands for a report; `id` is the packet's byte 2, which only Empty keeps. -/
def packetInstr (id : Byte) : Report → Instr
  | .empty => .reportEmpty id
  | .mouse b x y s p => .reportMouse b x y s p
  | .keyboard m k => .reportKeyboard m k
  | .absolute c f b => .reportAbsolute c f b

/-- PKT_SIZE (R7). -/
abbrev packetSize : Nat := 53

/-- Byte `k` of a list, 0 past its end. -/
def byteAt (bytes : List Byte) (k : Nat) : Byte := bytes.getD k 0

/-- A RawPacket of exactly 53 bytes (R76). -/
def decodePacket (bytes : List Byte) : Except DecodeError Instr :=
  if bytes.length = packetSize then
    .ok (packetInstr (byteAt bytes 2) (classifyPacket (byteAt bytes)))
  else .error .packetSize

/-- The decoder: every encoding is an instruction or is rejected by name. DESIGN CHOICE (assumption
log 25): bytes after the end of a frame (R74) are dropped, and the frame at the head is the instruction.
The spec gives a list of bytes longer than its frame no meaning (R75). -/
def decode : Encoded → Except DecodeError Instr
  | .command w => decodeCommand w
  | .frame bytes =>
    match decodeFrame bytes with
    | .ok (i, _) => .ok i
    | .error e => .error e
  | .response count bytes => .ok (decodeResponse count bytes)
  | .packet bytes => decodePacket bytes

/-! The encoder, from the same tables. -/

/-- OP and ARG8 in their places, RSV 0 (R80). -/
def commandWord (op arg : Byte) : Word := op.setWidth 32 ||| (arg.setWidth 32 <<< 8)

/-- The five bytes of a finger on the wire: palm, x, y (R79, 90 C5). -/
def fingerBytes (f : FingerData) : List Byte := [f.palmBits] ++ le2Bytes f.x ++ le2Bytes f.y

/-- Header bytes 0 and 1 as 0, the ID, the fields, then 0 up to 53 bytes: the bytes no layout reads (R76)
are encoded as 0. -/
def packetBytes (id : Byte) (fields : List Byte) : List Byte :=
  [0, 0, id] ++ fields ++ List.replicate (packetSize - 3 - fields.length) 0

/-- The fields of the Absolute layout from offset 3 on (R79). -/
def absoluteFields (contactFlags : Byte) (fingers : Vector FingerData 5) (buttons : Byte) : List Byte :=
  [contactFlags] ++ fingers.toList.flatMap fingerBytes ++ [buttons]

/-- The encoding of an instruction (R70 to R81). -/
def encode : Instr → Encoded
  | .emaWrite => .command (commandWord 0x01 0)
  | .emaRead => .command (commandWord 0x02 0)
  | .rd8 => .command (commandWord 0x03 0)
  | .wr8 v => .command (commandWord 0x04 v)
  | .rd16 => .command (commandWord 0x05 0)
  | .decodeAny => .command (commandWord 0x10 0x00)
  | .decodeMouse => .command (commandWord 0x10 0x06)
  | .decodeKeyboard => .command (commandWord 0x10 0x08)
  | .decodeAbsolute => .command (commandWord 0x10 0x09)
  | .qvalid n => .command (commandWord 0x20 n)
  | .qcontact n => .command (commandWord 0x21 n)
  | .qbutton mask => .command (commandWord 0x22 mask)
  | .emaWriteFrame a payload => .frame (writeFrame a payload)
  | .emaReadRequest a count => .frame (readRequest a count)
  | .emaReadResponse count bytes => .response count bytes
  | .reportMouse b x y s p => .packet (packetBytes 0x06 [b, x, y, s, p])
  | .reportKeyboard m k => .packet (packetBytes 0x08 ([m, 0] ++ k.toList))
  | .reportAbsolute c f b => .packet (packetBytes 0x09 (absoluteFields c f b))
  | .reportEmpty id => .packet (packetBytes id [])

/-! The opcode table's words, laid out as the hardware stores them. -/

/-- A frame form of the table gives bytes 0 and 1; every later byte is 0, up to the longest frame, 264
bytes (R100). -/
def tableFrameBytes (w : Nat) : List Byte :=
  [BitVec.ofNat 8 w, BitVec.ofNat 8 (w / 256)] ++ List.replicate 262 0

/-- A packet form of the table gives byte 2, the report ID; every other byte is 0. -/
def tablePacketBytes (w : Nat) : List Byte := packetBytes (BitVec.ofNat 8 w) []

/-- The encoding of a table row's bits: 32 bits are a command word, 16 bits the first two bytes of a frame
(direction and selector), 8 bits a packet's byte 2 (log 23). -/
def tableEncoding (nbits w : Nat) : Option Encoded :=
  if nbits = 32 then some (.command (BitVec.ofNat 32 w))
  else if nbits = 16 then some (.frame (tableFrameBytes w))
  else if nbits = 8 then some (.packet (tablePacketBytes w))
  else none

/-- The instruction the decoder reads from a table row's bits. -/
def decodeTableWord (nbits w : Nat) : Option Instr :=
  match tableEncoding nbits w with
  | some e =>
    match decode e with
    | .ok i => some i
    | .error _ => none
  | none => none

end Sys2Proof
end

