-- ==== Sys2Proof/Machine/State.lean ====
section
/-! DEFINITION. The state of ECRD (10_state.md R20 to R36) and the model's own fields beside it (the agents'
inputs and two plain counters for free values), as plain data; the reasons a step can stop; the state
after reset. -/

namespace Sys2Proof.Machine

/-- The fields of DIAG_LEN, DIAG_SUM and DIAG_RXN (R27). -/
structure Diag where
  /-- RX_DECL_LEN, DIAG_LEN[15:0] -/
  declLen : Half
  /-- RX_COUNTED, DIAG_LEN[31:16] -/
  counted : Half
  /-- RX_CSUM, DIAG_SUM[7:0] -/
  rxCsum : Byte
  /-- CALC_CSUM, DIAG_SUM[15:8] -/
  calcCsum : Byte
  /-- RX_LEN_PRESENT, DIAG_SUM[16] -/
  lenPresent : Bool
  /-- RX_CSUM_PRESENT, DIAG_SUM[17] -/
  csumPresent : Bool
  /-- RX_M, DIAG_RXN[15:0] -/
  delivered : Half
deriving DecidableEq, Repr

/-- A transport event of TRACE (R35). -/
inductive Event where
  /-- `W(bytes, stop)`: a BusWrite (20_memory.md R57) -/
  | w (bytes : List Byte) (stop : Bool)
  /-- `Q(n, stop, resp)`: a BusRequest and the bytes the transport returned (R58) -/
  | q (n : Nat) (stop : Bool) (resp : List Byte)
deriving DecidableEq, Repr

/-- What the transport does at one call (R58, R59): it returns, with response bytes where the call is a
request, or it never returns. A BusWrite ignores the bytes (R57). -/
inductive Reply where
  | returns (resp : List Byte)
  | neverReturns
deriving DecidableEq, Repr

/-- One input of the host side (R5, R23, R52, R240); a host program is a list of these (D31). -/
inductive Input where
  /-- a host write of the 32-bit word `w` at a byte offset -/
  | write (offset : Nat) (w : Word)
  /-- a host read at a byte offset; `dr` is the level of the data-ready line at that moment (R25, D20) -/
  | read (offset : Nat) (dr : Bool)
  /-- the reset input, between commands (R240) -/
  | reset
  /-- a reset that arrives while a command is in progress (R240) -/
  | resetInCommand
deriving DecidableEq, Repr

/-- A phase of a command, to be run by itself (assumption log 3). No command word and no reset leaves one
behind, so a state between host accesses holds none. -/
inductive Phase where
  /-- put this frame on the bus: a write frame, or the request of a read -/
  | frame (bytes : List Byte)
  /-- the request of a read was sent and holds the bus; the response phase comes next (R34, R107) -/
  | awaitResponse (count : Half)
  /-- classify the packet in PKT (R160) -/
  | classify
deriving DecidableEq, Repr

/-- A word the host has read: the model's record, not ECRD's state. -/
structure HostRead where
  offset : Nat
  value : Word
deriving DecidableEq, Repr

/-- The state. Down to `busHeld` the fields are the spec's (R20, R36); the rest are the model's own. -/
structure State where
  /-- ADDR (R22) -/
  addr : Word
  /-- COUNT (R22) -/
  count : Half
  /-- STATUS[5:0] (R24) -/
  status : BitVec 6
  /-- VALUE[15:0] (R26) -/
  value : Half
  /-- DIAG_LEN, DIAG_SUM, DIAG_RXN (R27) -/
  diag : Diag
  /-- DATA (R28) and PKT (R29), by host offset (R53): the bytes written since reset, offsets rising -/
  mem : List Host.Cell
  /-- REPORT (R30, R31) -/
  report : Report
  /-- TRACE (R35), oldest first -/
  trace : List Event
  /-- is the bus held without a stop (R34, R36)? -/
  busHeld : Bool
  /-- the model's own: a phase to be run by itself, none between commands -/
  inflight : Option Phase
  /-- the model's own: the host side's accesses still to come, next first -/
  inputs : List Input
  /-- the model's own: what the transport does at its next calls -/
  replies : List Reply
  /-- the model's own: the index of the next free response (`Config.freeResponse`) -/
  draws : Nat
  /-- the model's own: the index of this life since reset (`Config.freeByte`) -/
  epoch : Nat
  /-- the model's own: the words the host has read, oldest first -/
  hostReads : List HostRead
deriving DecidableEq, Repr

/-- The reasons a step stops because the machine does. -/
inductive Fault where
  /-- A transport call never returns: ECRD is blocked for ever (R59, 60_exceptions.md R223 "Stuck", U8).
  Raised by the bus operations of EMA_WRITE, EMA_READ, RD8, WR8, RD16 and of the frame forms, when
  `replies` says so. Safe: the hardware does not go on either. -/
  | transportNeverReturns
  /-- A host access at an offset outside 0x00000 to 0x10FFF (R52). Raised by `hostWrite` and `hostRead`.
  Safe: the space does not reach there, and the model stops. -/
  | offsetOutsideSpace
deriving DecidableEq, Repr

/-- The reasons the model has no meaning for what it is asked to do. -/
inductive Refusal where
  /-- An instruction whose arm of `exec` has no meaning yet. Raised by `exec` alone. Safe. -/
  | notModelled (mnemonic : String)
  /-- A reset inside a command (70_reset_and_hazards.md R240: "A model refuses it"). Raised by `fetch`. Safe. -/
  | resetDuringCommand
  /-- A frame in `inflight` whose direction, selector or count ECRD never emits, or with fewer bytes than its
  form has (30_encoding.md R75 "it defines no meaning for them"). More bytes are dropped
  (log 25). Raised by `fetch`. Safe. -/
  | undecodableForm (why : DecodeError)
  /-- A form in `inflight` outside the bounds of its encoding (`Instr.wellFormed`). Raised by `fetch`. Safe. -/
  | illFormedForm
deriving DecidableEq, Repr

/-- The outcome of a step of ECRD. -/
abbrev Result := Host.Outcome State Fault Refusal

/-- The DIAG registers after reset: 0 in every field (R36). -/
def Diag.reset : Diag :=
  { declLen := 0, counted := 0, rxCsum := 0, calcCsum := 0, lenPresent := false
    csumPresent := false, delivered := 0 }

/-- The machine right after reset (R36). DATA and PKT are unspecified: nothing is listed in `mem`, so every
buffer byte reads as its free value (assumption log 6). The model's own fields start empty (log 7). -/
def State.reset : State :=
  { addr := 0, count := 0, status := 0, value := 0, diag := Diag.reset, mem := [], report := .empty
    trace := [], busHeld := false, inflight := none, inputs := [], replies := [], draws := 0
    epoch := 0, hostReads := [] }

end Sys2Proof.Machine
end

