-- ==== Sys2Proof/Machine/Flags.lean ====
section
/-! DEFINITION. The STATUS flags (10_state.md R24), every way a command writes them, and the response
validator that computes the EMA flags and diagnostics (40_ema_codec.md R110 to R118). -/

namespace Sys2Proof.Machine

/-- The named bits of STATUS[5:0] (R24). -/
inductive Flag where
  | csumMismatch
  | lenMismatch
  | unrecognized
  | decodeFail
  | cmdErr
  | qresult
deriving DecidableEq, Repr

/-- The bit position of a flag (R24). -/
def Flag.bit : Flag → Nat
  | .csumMismatch => 0
  | .lenMismatch => 1
  | .unrecognized => 2
  | .decodeFail => 3
  | .cmdErr => 4
  | .qresult => 5

/-- STATUS[5:0] with only this flag set. -/
def Flag.mask (f : Flag) : BitVec 6 := 1#6 <<< f.bit

/-- A flag's mask if it is to be set, no bit otherwise. -/
def Flag.maskIf (f : Flag) (b : Bool) : BitVec 6 := if b then f.mask else 0

/-- Read a flag of STATUS. -/
def State.flag (s : State) (f : Flag) : Bool := s.status.getLsbD f.bit

/-- `STATUS[5:0] <- 0`, the first act of the prologue (30_encoding.md R84). -/
def State.clearFlags (s : State) : State := { s with status := 0 }

/-- `raise <Flag>` (R12): ECRD's only way to report an error (60_exceptions.md R210, R213). -/
def State.raise (s : State) (f : Flag) : State := { s with status := s.status ||| f.mask }

/-- `QRESULT <- b` (43_report_queries.md R190, R192, R194): no other bit of STATUS changes. -/
def State.answer (s : State) (b : Bool) : State :=
  { s with status := (s.status &&& ~~~Flag.qresult.mask) ||| Flag.qresult.maskIf b }

/-- `STATUS[1:0] <- flags` (R105): no other bit of STATUS changes. -/
def State.setEmaFlags (s : State) (csumMismatch lenMismatch : Bool) : State :=
  { s with
    status := (s.status &&& ~~~(Flag.csumMismatch.mask ||| Flag.lenMismatch.mask)) |||
      (Flag.csumMismatch.maskIf csumMismatch ||| Flag.lenMismatch.maskIf lenMismatch) }

/-- What EmaReadCore returns: the flags, the diagnostics and the payload bytes received. -/
structure ReadResult where
  csumMismatch : Bool
  lenMismatch : Bool
  diag : Diag
  /-- the received bytes of the payload view, `pay[0]` on (R117): the bytes that did not arrive are missing
  from the end -/
  payload : List Byte
deriving DecidableEq, Repr

/-- STATUS[1:0] = 0: complete, checksum matched, declared length count + 2 (R119). -/
def ReadResult.good (r : ReadResult) : Bool := !r.csumMismatch && !r.lenMismatch

/-- The declared length, 0 when fewer than two bytes arrived (R112). -/
def declaredLength (r : List Byte) : Half :=
  match r with
  | b0 :: b1 :: _ => le16 b0 b1
  | _ => 0

/-- EmaReadCore(c, resp), a pure function (R110 to R118). -/
def emaReadCore (c : Nat) (resp : List Byte) : ReadResult :=
  let r := resp.take (c + 3)                       -- R110
  let m := r.length
  let k := min m (c + 2)                           -- R111
  let lenPresent := decide (2 ≤ m)                 -- R112
  let declLen := declaredLength r
  let computed := sum8 (r.take k)                      -- R113
  let csumPresent := decide (m = c + 3)            -- R114
  let rx := if csumPresent then byteAt r (c + 2) else 0
  { csumMismatch := !csumPresent || rx != computed     -- R115
    lenMismatch := !lenPresent || declLen.toNat != k   -- R116
    diag :=                                        -- R118
      { declLen := declLen
        counted := BitVec.ofNat 16 k
        rxCsum := rx
        calcCsum := computed
        lenPresent := lenPresent
        csumPresent := csumPresent
        delivered := BitVec.ofNat 16 m }
    payload := (r.drop 2).take c }                 -- R117

end Sys2Proof.Machine
end

