-- ==== Sys2Proof/Machine/Memory.lean ====
section
/-! DEFINITION. The buffers DATA and PKT (10_state.md R28, R29) as one list of (host offset, byte) pairs in
canonical form: offsets strictly rising, every offset a buffer byte's (20_memory.md R53). An offset that
is not listed has not been written since reset and reads as its free value (R36, U1). -/

namespace Sys2Proof.Machine

/-- Where PKT begins (R53). -/
abbrev pktBase : Nat := 0x800

/-- Where DATA begins (R53). -/
abbrev dataBase : Nat := 0x1000

/-- Does a byte of PKT or DATA stand at this offset (R53)? -/
def inBuffer (a : Nat) : Bool :=
  (decide (pktBase ≤ a) && decide (a < pktBase + packetSize)) ||
    (decide (dataBase ≤ a) && Config.withinDataCap (a - dataBase + 1))

/-- What the list holds for an offset; `none`: nothing has written it since reset. -/
def Memory.get? (m : List Host.Cell) (a : Nat) : Option Byte :=
  match m with
  | [] => none
  | (k, v) :: rest => if k = a then some v else Memory.get? rest a

/-- The list with offset `a` holding `b`. -/
def Memory.set (m : List Host.Cell) (a : Nat) (b : Byte) : List Host.Cell :=
  match m with
  | [] => [(a, b)]
  | (k, v) :: rest =>
    if a < k then (a, b) :: (k, v) :: rest
    else if a = k then (a, b) :: rest
    else (k, v) :: Memory.set rest a b

/-- Offsets strictly rising from above `low` on, each a buffer byte's. -/
def Memory.wfAbove (low : Option Nat) : List Host.Cell → Bool
  | [] => true
  | (k, _) :: rest =>
    (match low with
      | none => true
      | some l => decide (l < k)) && inBuffer k && Memory.wfAbove (some k) rest

/-- The canonical form. -/
def Memory.wf (m : List Host.Cell) : Bool := Memory.wfAbove none m

/-- The byte at a host offset: a buffer byte written since reset, the free value of one that was not, and
0 where no buffer byte stands (R53: "the bytes past the end read 0"). -/
def State.readByte (s : State) (a : Nat) : Byte :=
  if inBuffer a then
    match Memory.get? s.mem a with
    | some b => b
    | none => Config.freeByte s.epoch a
  else 0

/-- Write one byte; where no buffer byte stands the write is ignored (R53). -/
def State.writeByte (s : State) (a : Nat) (b : Byte) : State :=
  if inBuffer a then { s with mem := Memory.set s.mem a b } else s

/-- Write consecutive bytes from an offset on. -/
def State.writeBytes (s : State) (a : Nat) : List Byte → State
  | [] => s
  | b :: rest => (s.writeByte a b).writeBytes (a + 1) rest

/-- `PKT[k]` (R12, R29). -/
def State.pktByte (s : State) (k : Nat) : Byte := s.readByte (pktBase + k)

/-- `DATA[k]` (R12, R28). -/
def State.dataByte (s : State) (k : Nat) : Byte := s.readByte (dataBase + k)

/-- `PKT[0..52]`. -/
def State.pktBytes (s : State) : List Byte := (List.range packetSize).map s.pktByte

/-- `DATA[0..n-1]`. -/
def State.dataBytes (s : State) (n : Nat) : List Byte := (List.range n).map s.dataByte

end Sys2Proof.Machine
end

