-- ==== Sys2Proof/Machine/Ops.lean ====
section
/-! DEFINITION. The operations the commands share: sequencing, the common prologue (30_encoding.md R84, R85),
the bus transactions (20_memory.md R56 to R59), and reset (70_reset_and_hazards.md R240). ECRD takes no
exception and returns from none (60_exceptions.md R213, R214): an error is a flag of STATUS, raised by
`State.raise`, and the command ends in an ordinary next state (R223). -/

namespace Sys2Proof.Machine

/-- Go on with `k` from a next state; a stop stays a stop. -/
def andThen (o : Result) (k : State → Result) : Result :=
  match o with
  | .next s => k s
  | .fault f => .fault f
  | .refused r => .refused r

/-- MAX_WRITE_PAYLOAD (R7). -/
abbrev maxWritePayload : Nat := 255

/-- `countLegal(c)` (R85): false in exactly two cases. The frame and packet forms are no command words. -/
def countLegal (i : Instr) (s : State) : Bool :=
  match i with
  | .emaWrite => decide (s.count.toNat ≤ maxWritePayload)
  | .emaRead => Config.withinDataCap s.count.toNat
  | .rd8 | .wr8 _ | .rd16 | .decodeAny | .decodeMouse | .decodeKeyboard | .decodeAbsolute
  | .qvalid _ | .qcontact _ | .qbutton _ => true
  | .emaWriteFrame _ _ | .emaReadRequest _ _ | .emaReadResponse _ _ | .reportMouse _ _ _ _ _
  | .reportKeyboard _ _ | .reportAbsolute _ _ _ | .reportEmpty _ => true

/-- A refused command: the flags cleared, CMD_ERR raised, nothing else changed (R84). -/
def commandError (s : State) : Result := .next (s.clearFlags.raise .cmdErr)

/-- The common prologue of a command that decoded (R84): clear STATUS[5:0], refuse an illegal count, else
perform the command. -/
def withPrologue (i : Instr) (body : State → Result) (s : State) : Result :=
  if countLegal i s then body s.clearFlags else commandError s

/-- What the transport does at its next call, and the state with that draw used up. When nothing is said in
`replies`, the call returns, with a free response (R58, assumption log 8). -/
def State.draw (s : State) : Reply × State :=
  match s.replies with
  | r :: rest => (r, { s with replies := rest })
  | [] => (.returns (Config.freeResponse s.draws), { s with draws := s.draws + 1 })

/-- `BusWrite(bytes, stop)` (R57): the event joins TRACE; without a stop the bus stays held (R34). -/
def busWrite (bytes : List Byte) (stop : Bool) (s : State) : Result :=
  match s.draw with
  | (.returns _, t) => .next { t with trace := t.trace ++ [.w bytes stop], busHeld := !stop }
  | (.neverReturns, _) => .fault .transportNeverReturns

/-- The reply to `BusRequest(n, stop)` (R58): at most `n` bytes; the caller records the event. -/
def busReply (n : Nat) (k : List Byte → State → Result) (s : State) : Result :=
  match s.draw with
  | (.returns resp, t) => k (resp.take n) t
  | (.neverReturns, _) => .fault .transportNeverReturns

/-- The end of `BusRequest(count + 3, stop = true)` with these bytes (R58, R107): the event joins TRACE,
the bus is released, and the validator's flags and diagnostics are written whatever they are (R118). -/
def State.recordResponse (s : State) (count : Half) (resp : List Byte) : State :=
  let res := emaReadCore count.toNat resp
  { s.setEmaFlags res.csumMismatch res.lenMismatch with
    trace := s.trace ++ [.q (count.toNat + 3) true resp]
    busHeld := false
    diag := res.diag }

/-- The primitives of the transport (00_scope.md R5, R56). Of the answer to an available-count query ECRD uses
whether it is nonzero and nothing else (R58), so that is what the query holds (assumption log 21). -/
inductive BusPrimitive where
  | beginTransaction (device : Nat)
  | writeByte (b : Byte)
  | endTransaction (stop : Bool)
  | requestBytes (device n : Nat) (stop : Bool)
  | availableCount (nonzero : Bool)
  | readByte (b : Byte)
deriving DecidableEq, Repr

/-- The primitives a transport event is composed of, with DEV_ADDR (R56, R57, R58). A request is followed by
read-byte while available-count is nonzero: one query before each byte, and the one that ends the reading
(assumption log 21). -/
def Event.primitives : Event → List BusPrimitive
  | .w bytes stop =>
    [.beginTransaction Config.devAddr] ++ bytes.map .writeByte ++ [.endTransaction stop]
  | .q n stop resp =>
    [.requestBytes Config.devAddr n stop] ++
      resp.flatMap (fun b => [.availableCount true, .readByte b]) ++ [.availableCount false]

/-- Reset (R240): every piece of ECRD's state takes its value of R36, and the buffers are unspecified anew.
The host's inputs to come, the transport's and the host's record are not ECRD's and stay (log 17). -/
def State.applyReset (s : State) : State :=
  { State.reset with
    inputs := s.inputs, replies := s.replies, draws := s.draws, epoch := s.epoch + 1
    hostReads := s.hostReads }

end Sys2Proof.Machine
end

