-- ==== Sys2Proof/Machine/Operands.lean ====
section
/-! DEFINITION. The operand forms of the commands (30_encoding.md R82) and where a result goes. The byte-order
helpers and the packet's fields are in Decode.lean; ADDR, COUNT and ARG8 are used as they stand. -/

namespace Sys2Proof.Machine

/-- EMA_WRITE's payload, DATA[0..COUNT-1] (R100). -/
def State.writePayload (s : State) : List Byte := s.dataBytes s.count.toNat

/-- EMA_READ's destination (R117): every received payload byte is written into DATA, whatever the flags;
a byte that did not arrive leaves DATA unchanged. -/
def State.storePayload (s : State) (res : ReadResult) : State := s.writeBytes dataBase res.payload

/-- RD8's destination (R140, R141): VALUE, zero-extended, only when STATUS[1:0] = 0. -/
def State.storeValue8 (s : State) (res : ReadResult) : State :=
  { s with value := if res.good then (byteAt res.payload 0).setWidth 16 else s.value }

/-- RD16's destination (R141, R144): VALUE, low byte first, only when STATUS[1:0] = 0. -/
def State.storeValue16 (s : State) (res : ReadResult) : State :=
  { s with value := if res.good then le16 (byteAt res.payload 0) (byteAt res.payload 1) else s.value }

/-- Finger `n` of an Absolute report, for n in 0..4 (R190, R192). -/
def fingerAt (fingers : Vector FingerData 5) (n : Nat) : Option FingerData := fingers[n]?

/-- The buttons byte the host reads in RPT_BUTTONS and QBUTTON tests (10_state.md R33, R194). -/
def buttonsOf : Report → Byte
  | .mouse b _ _ _ _ => b
  | .absolute _ _ b => b
  | .keyboard _ _ => 0
  | .empty => 0

end Sys2Proof.Machine
end

