-- ==== Sys2Proof/Machine/Codec.lean ====
section
/-! DEFINITION. The EMA transaction codec (40_ema_codec.md): EMA_WRITE and EMA_READ, and the transactions
they share with the register access helpers. -/

namespace Sys2Proof.Machine

/-- Send the write frame of address `a` and payload `p`, with stop (R100, R142). -/
def sendWriteFrame (a : Word) (p : List Byte) (s : State) : Result := busWrite (writeFrame a p) true s

/-- Send the read request, with no stop: the bus stays held (R106). -/
def sendReadRequest (a : Word) (count : Half) (s : State) : Result :=
  busWrite (readRequest a count) false s

/-- A whole read of `count` bytes at ADDR (R105, R140, R144): the request, the response with no other
transaction between (R107), the validator, and the destination `store`. -/
def readTransaction (count : Half) (store : State → ReadResult → State) (s : State) : Result :=
  andThen (sendReadRequest s.addr count s)
    (busReply (count.toNat + 3) fun resp t =>
      .next (store (t.recordResponse count resp) (emaReadCore count.toNat resp)))

/-- EMA_WRITE (R100). -/
def execEmaWrite (s : State) : Result :=
  withPrologue .emaWrite (fun t => sendWriteFrame t.addr t.writePayload t) s

/-- EMA_READ (R105). -/
def execEmaRead (s : State) : Result :=
  withPrologue .emaRead (fun t => readTransaction t.count State.storePayload t) s

end Sys2Proof.Machine
end

