-- ==== Sys2Proof/Machine/ReportDecoder.lean ====
section
/-! DEFINITION. The report decoder and classifier (42_report_decoder.md): DECODE in its four forms. -/

namespace Sys2Proof.Machine

/-- Write a whole new REPORT from a classification (R31, R171); Empty is an unrecognised ID (R165). -/
def State.loadReport (s : State) (r : Report) : State :=
  { s with
    report := r
    status := s.status ||| Flag.unrecognized.maskIf (r == .empty) }

/-- The expected kind was not met: Empty, and DECODE_FAIL alone (R166). -/
def State.failDecode (s : State) : State := { s.raise .decodeFail with report := .empty }

/-- DECODE with expected kind `e` (R160): PKT[2] is read once (R167); a mismatch comes first (R166). -/
def decodeReport (e : Byte) (s : State) : State :=
  if e ≠ 0x00 ∧ s.pktByte 2 ≠ e then s.failDecode else s.loadReport (classifyPacket s.pktByte)

/-- DECODE ANY (R160). -/
def execDecodeAny (s : State) : Result :=
  withPrologue .decodeAny (fun t => .next (decodeReport 0x00 t)) s

/-- DECODE MOUSE (R160). -/
def execDecodeMouse (s : State) : Result :=
  withPrologue .decodeMouse (fun t => .next (decodeReport 0x06 t)) s

/-- DECODE KEYBOARD (R160). -/
def execDecodeKeyboard (s : State) : Result :=
  withPrologue .decodeKeyboard (fun t => .next (decodeReport 0x08 t)) s

/-- DECODE ABSOLUTE (R160). -/
def execDecodeAbsolute (s : State) : Result :=
  withPrologue .decodeAbsolute (fun t => .next (decodeReport 0x09 t)) s

end Sys2Proof.Machine
end

