-- ==== Sys2Proof/Machine/Forms.lean ====
section
/-! DEFINITION. The opcode table's frame and packet forms, each the phase of a command that its rule
describes, with no prologue of its own (assumption log 3). -/

namespace Sys2Proof.Machine

/-- ema.write_frame (R71): the bus phase of EMA_WRITE and WR8. -/
def execEmaWriteFrame (a : Word) (payload : List Byte) (s : State) : Result :=
  sendWriteFrame a payload s

/-- ema.read_request (R72, R106): the first bus phase of a read. The bus is held, and the response phase is
what comes next (R34, R107). -/
def execEmaReadRequest (a : Word) (count : Half) (s : State) : Result :=
  andThen (sendReadRequest a count s) fun t => .next { t with inflight := some (.awaitResponse count) }

/-- ema.read_response (R73, R107 to R118): the second bus phase of EMA_READ, with the bytes delivered;
any after the first count + 3 are ignored (R110). -/
def execEmaReadResponse (count : Half) (bytes : List Byte) (s : State) : Result :=
  let resp := bytes.take (count.toNat + 3)
  .next ((s.recordResponse count resp).storePayload (emaReadCore count.toNat resp))

/-- report.mouse (R77). -/
def execReportMouse (b x y scroll pan : Byte) (s : State) : Result :=
  .next (s.loadReport (.mouse b x y scroll pan))

/-- report.keyboard (R78). -/
def execReportKeyboard (modifier : Byte) (keycodes : Vector Byte 6) (s : State) : Result :=
  .next (s.loadReport (.keyboard modifier keycodes))

/-- report.absolute (R79). -/
def execReportAbsolute (contactFlags : Byte) (fingers : Vector FingerData 5) (buttons : Byte)
    (s : State) : Result :=
  .next (s.loadReport (.absolute contactFlags fingers buttons))

/-- report.empty (R76, R165): Empty and UNRECOGNIZED, whatever the ID. -/
def execReportEmpty (_id : Byte) (s : State) : Result := .next (s.loadReport .empty)

end Sys2Proof.Machine
end

