-- ==== Sys2Proof/Machine/HostAccess.lean ====
section
/-! DEFINITION. The host register space (20_memory.md R52, R53): what each offset reads as and what a write to
it stores (10_state.md R22 to R27, R33). A write of CMD starts a command; that is in Fetch.lean. -/

namespace Sys2Proof.Machine

/-- The space covers byte offsets 0x00000 to 0x10FFF (R52). -/
abbrev hostSpaceSize : Nat := 0x11000

/-- The word an offset reaches, `o & ~3` (R52). -/
def wordOffset (o : Nat) : Nat := o / 4 * 4

/-- A word from two halves, low half first. -/
def wordOfHalves (lo hi : Half) : Word := lo.setWidth 32 ||| (hi.setWidth 32 <<< 16)

/-- A Boolean as bit `n` of a word. -/
def bitAt (b : Bool) (n : Nat) : Word := if b then 1#32 <<< n else 0

/-- STATUS as the host reads it: bits 5:0, bit 7 the live DR line, every other bit 0 (R24, R25). -/
def statusWord (s : State) (dr : Bool) : Word := s.status.setWidth 32 ||| bitAt dr 7

/-- DIAG_LEN (R27). -/
def diagLenWord (d : Diag) : Word := wordOfHalves d.declLen d.counted

/-- DIAG_SUM (R27). -/
def diagSumWord (d : Diag) : Word :=
  le32 d.rxCsum d.calcCsum 0 0 ||| bitAt d.lenPresent 16 ||| bitAt d.csumPresent 17

/-- DIAG_RXN (R27). -/
def diagRxnWord (d : Diag) : Word := d.delivered.setWidth 32

/-- RPT_TAG (R30, R33). -/
def rptTag : Report → Byte
  | .empty => 0x00
  | .mouse _ _ _ _ _ => 0x06
  | .keyboard _ _ => 0x08
  | .absolute _ _ _ => 0x09

/-- RPT_MOUSE (R33). -/
def rptMouse : Report → Word
  | .mouse _ x y scroll pan => le32 x y scroll pan
  | .empty | .keyboard _ _ | .absolute _ _ _ => 0

/-- RPT_KBD_MOD (R33). -/
def rptKbdMod : Report → Byte
  | .keyboard m _ => m
  | .empty | .mouse _ _ _ _ _ | .absolute _ _ _ => 0

/-- RPT_KBD_KEYS_LO (R33). -/
def rptKbdKeysLo : Report → Word
  | .keyboard _ k => le32 k[0] k[1] k[2] k[3]
  | .empty | .mouse _ _ _ _ _ | .absolute _ _ _ => 0

/-- RPT_KBD_KEYS_HI (R33). -/
def rptKbdKeysHi : Report → Word
  | .keyboard _ k => le32 k[4] k[5] 0 0
  | .empty | .mouse _ _ _ _ _ | .absolute _ _ _ => 0

/-- RPT_CONTACT (R33). -/
def rptContact : Report → Byte
  | .absolute c _ _ => c
  | .empty | .mouse _ _ _ _ _ | .keyboard _ _ => 0

/-- Finger `i` of the current report, all 0 unless it is Absolute (R33). -/
def rptFinger (r : Report) (i : Nat) : FingerData :=
  match r with
  | .absolute _ fingers _ => (fingerAt fingers i).getD { x := 0, y := 0, palmBits := 0 }
  | .empty | .mouse _ _ _ _ _ | .keyboard _ _ => { x := 0, y := 0, palmBits := 0 }

/-- RPT_FINGER_XY(i) (R33). -/
def rptFingerXY (r : Report) (i : Nat) : Word := wordOfHalves (rptFinger r i).x (rptFinger r i).y

/-- RPT_FINGER_PALM(i) (R33). -/
def rptFingerPalm (r : Report) (i : Nat) : Word := (rptFinger r i).palmBits.setWidth 32

/-- The registers of REPORT by offset (R33); 0 where there is none. -/
def reportWord (r : Report) (b : Nat) : Word :=
  if b = 0x100 then (rptTag r).setWidth 32
  else if b = 0x104 then (buttonsOf r).setWidth 32
  else if b = 0x108 then rptMouse r
  else if b = 0x10C then (rptKbdMod r).setWidth 32
  else if b = 0x110 then rptKbdKeysLo r
  else if b = 0x114 then rptKbdKeysHi r
  else if b = 0x118 then (rptContact r).setWidth 32
  else if 0x120 ≤ b ∧ b < 0x148 then
    if (b - 0x120) % 8 = 0 then rptFingerXY r ((b - 0x120) / 8) else rptFingerPalm r ((b - 0x120) / 8)
  else 0

/-- A window word: four bytes, little-endian; a byte that does not exist reads 0 (R53). -/
def windowWord (s : State) (b : Nat) : Word :=
  le32 (s.readByte b) (s.readByte (b + 1)) (s.readByte (b + 2)) (s.readByte (b + 3))

/-- The word the host reads at byte offset `o`, with the data-ready line at `dr` (R22 to R27, R33, R52,
R53). CMD reads 0 (R23), and so does an offset nothing occupies. -/
def hostReadWord (s : State) (o : Nat) (dr : Bool) : Word :=
  let b := wordOffset o
  if b = 0x004 then statusWord s dr
  else if b = 0x008 then s.addr
  else if b = 0x00C then s.count.setWidth 32
  else if b = 0x010 then s.value.setWidth 32
  else if b = 0x014 then diagLenWord s.diag
  else if b = 0x018 then diagSumWord s.diag
  else if b = 0x01C then diagRxnWord s.diag
  else if 0x100 ≤ b ∧ b < 0x148 then reportWord s.report b
  else windowWord s b

/-- The bytes of a word, low byte first, written where a buffer byte stands (R53). -/
def writeWindowWord (s : State) (b : Nat) (w : Word) : State := s.writeBytes b (le4Bytes w)

/-- The state after a host write of `w` at an offset other than CMD's: ADDR and COUNT store, a window word
writes its bytes that exist, a read-only register and an unmapped offset ignore it (R22, R52, R53). -/
def hostWriteWord (s : State) (o : Nat) (w : Word) : State :=
  let b := wordOffset o
  if b = 0x008 then { s with addr := w }
  else if b = 0x00C then { s with count := w.setWidth 16 }
  else writeWindowWord s b w

/-- A host read (R52, R55): no side effect on ECRD; the word joins the host's record (log 12). -/
def hostRead (o : Nat) (dr : Bool) (s : State) : Result :=
  if o < hostSpaceSize then
    .next { s with hostReads := s.hostReads ++ [{ offset := o, value := hostReadWord s o dr }] }
  else .fault .offsetOutsideSpace

end Sys2Proof.Machine
end

