-- ==== Sys2Proof/Machine/RegisterAccess.lean ====
section
/-! DEFINITION. The register access helpers (41_register_access.md): RD8, WR8, RD16. They use ADDR and leave
COUNT and DATA alone (D11). -/

namespace Sys2Proof.Machine

/-- RD8 (R140): a read of count 1 into VALUE. -/
def execRd8 (s : State) : Result :=
  withPrologue .rd8 (readTransaction 1 State.storeValue8) s

/-- WR8 #v (R142): the write frame of count 1. -/
def execWr8 (v : Byte) (s : State) : Result :=
  withPrologue (.wr8 v) (fun t => sendWriteFrame t.addr [v] t) s

/-- RD16 (R144): one read of count 2 into VALUE. -/
def execRd16 (s : State) : Result :=
  withPrologue .rd16 (readTransaction 2 State.storeValue16) s

end Sys2Proof.Machine
end

