-- ==== Sys2Proof/Machine/ReportQueries.lean ====
section
/-! DEFINITION. The report queries (43_report_queries.md): QVALID, QCONTACT, QBUTTON. Each reads REPORT and
ARG8 and writes QRESULT alone (R197). -/

namespace Sys2Proof.Machine

/-- Confidence set and palm-reject clear (R190, R191). -/
def palmValid (p : Byte) : Bool :=
  (p &&& Config.confMask) != 0 && (p &&& Config.palmRejectMask) == 0

/-- isFingerValid (R190). -/
def fingerValid (r : Report) (n : Nat) : Bool :=
  match r with
  | .absolute _ fingers _ =>
    match fingerAt fingers n with
    | some f => palmValid f.palmBits
    | none => false
  | .mouse _ _ _ _ _ => false
  | .keyboard _ _ => false
  | .empty => false

/-- isFingerContacted (R192): bit `n` of contactFlags for n in 0..4. -/
def fingerContacted (r : Report) (n : Nat) : Bool :=
  match r with
  | .absolute contactFlags _ _ => decide (n ≤ 4) && contactFlags.getLsbD n
  | .mouse _ _ _ _ _ => false
  | .keyboard _ _ => false
  | .empty => false

/-- isButtonPressed (R194). -/
def buttonPressed (r : Report) (mask : Byte) : Bool := (buttonsOf r &&& mask) != 0

/-- QVALID #n (R190). -/
def execQvalid (n : Byte) (s : State) : Result :=
  withPrologue (.qvalid n) (fun t => .next (t.answer (fingerValid t.report n.toNat))) s

/-- QCONTACT #n (R192). -/
def execQcontact (n : Byte) (s : State) : Result :=
  withPrologue (.qcontact n) (fun t => .next (t.answer (fingerContacted t.report n.toNat))) s

/-- QBUTTON #mask (R194). -/
def execQbutton (mask : Byte) (s : State) : Result :=
  withPrologue (.qbutton mask) (fun t => .next (t.answer (buttonPressed t.report mask))) s

end Sys2Proof.Machine
end

