-- ==== Sys2Proof/Machine/Fetch.lean ====
section
/-! DEFINITION. Where the next step comes from. ECRD fetches no instructions (10_state.md R21): a command is
the host's next write of CMD (R23). The host's accesses come in the order it issues them (20_memory.md
R61); a phase in progress comes before any of them (R6, R34). -/

namespace Sys2Proof.Machine

/-- What a step is to do: run an instruction from a state, or end with an outcome that runs none. -/
inductive Fetched where
  | run (i : Instr) (s : State)
  | done (o : Result)

/-- A form put in `inflight`: decoded, checked and run, or refused by name (R75). -/
def fetchForm (e : Encoded) (s : State) : Fetched :=
  match decode e with
  | .ok i => if i.wellFormed then .run i s else .done (.refused .illFormedForm)
  | .error why => .done (.refused (.undecodableForm why))

/-- The next step of a phase in progress; `s` no longer holds it. -/
def fetchPhase (p : Phase) (s : State) : Fetched :=
  match p with
  | .frame bytes => fetchForm (.frame bytes) s
  | .classify => fetchForm (.packet s.pktBytes) s
  | .awaitResponse count =>
    match s.draw with
    | (.returns resp, t) => fetchForm (.response count resp) t
    | (.neverReturns, _) => .done (.fault .transportNeverReturns)

/-- A host write: CMD starts a command (R23), an Illegal word is refused by value (R84), any other offset
only stores (R55). -/
def fetchWrite (o : Nat) (w : Word) (s : State) : Fetched :=
  if hostSpaceSize ≤ o then .done (.fault .offsetOutsideSpace)
  else if wordOffset o = 0x000 then
    match decode (.command w) with
    | .ok i => .run i s
    | .error _ => .done (commandError s)
  else .done (.next (hostWriteWord s o w))

/-- Reset takes effect only between commands (R240): never while the bus is held inside one (R34). -/
def fetchReset (s : State) : Fetched :=
  if s.busHeld then .done (.refused .resetDuringCommand) else .done (.next s.applyReset)

/-- The host side's next input; `s` no longer holds it. -/
def fetchInput (i : Input) (s : State) : Fetched :=
  match i with
  | .write o w => fetchWrite o w s
  | .read o dr => .done (hostRead o dr s)
  | .reset => fetchReset s
  | .resetInCommand => .done (.refused .resetDuringCommand)

/-- What the next step does. With no input to come the host does nothing, and nothing changes (log 2). -/
def fetch (s : State) : Fetched :=
  match s.inflight with
  | some p => fetchPhase p { s with inflight := none }
  | none =>
    match s.inputs with
    | i :: rest => fetchInput i { s with inputs := rest }
    | [] => .done (.next s)

/-- `s` with an encoding placed where `fetch` takes its next instruction from. -/
def State.withEncoded (s : State) (e : Encoded) : State :=
  match e with
  | .command w => { s with inflight := none, inputs := .write 0x000 w :: s.inputs }
  | .frame bytes => { s with inflight := some (.frame bytes) }
  | .response count bytes =>
    { s with inflight := some (.awaitResponse count), replies := .returns bytes :: s.replies }
  | .packet bytes => { s.writeBytes pktBase bytes with inflight := some .classify }

end Sys2Proof.Machine
end

