-- ==== Sys2Proof/Machine/Dispatch.lean ====
section
/-! DEFINITION. One arm per constructor of Instr: each row of the opcode table and its meaning. -/

namespace Sys2Proof.Machine

def exec (i : Instr) (s : State) : Host.Outcome State Fault Refusal :=
  match i with
  | .emaWrite => Sys2Proof.Machine.execEmaWrite s
  | .emaRead => Sys2Proof.Machine.execEmaRead s
  | .rd8 => Sys2Proof.Machine.execRd8 s
  | .wr8 v => Sys2Proof.Machine.execWr8 v s
  | .rd16 => Sys2Proof.Machine.execRd16 s
  | .decodeAny => Sys2Proof.Machine.execDecodeAny s
  | .decodeMouse => Sys2Proof.Machine.execDecodeMouse s
  | .decodeKeyboard => Sys2Proof.Machine.execDecodeKeyboard s
  | .decodeAbsolute => Sys2Proof.Machine.execDecodeAbsolute s
  | .qvalid n => Sys2Proof.Machine.execQvalid n s
  | .qcontact n => Sys2Proof.Machine.execQcontact n s
  | .qbutton mask => Sys2Proof.Machine.execQbutton mask s
  | .emaWriteFrame a payload => Sys2Proof.Machine.execEmaWriteFrame a payload s
  | .emaReadRequest a count => Sys2Proof.Machine.execEmaReadRequest a count s
  | .emaReadResponse count bytes => Sys2Proof.Machine.execEmaReadResponse count bytes s
  | .reportMouse b x y scroll pan => Sys2Proof.Machine.execReportMouse b x y scroll pan s
  | .reportKeyboard m keys => Sys2Proof.Machine.execReportKeyboard m keys s
  | .reportAbsolute c fingers b => Sys2Proof.Machine.execReportAbsolute c fingers b s
  | .reportEmpty id => Sys2Proof.Machine.execReportEmpty id s

end Sys2Proof.Machine
end

