-- ==== Sys2Proof/Machine/Step.lean ====
section
/-! DEFINITION. One step: what `fetch` says comes next, run by `exec`. -/

namespace Sys2Proof.Machine

/-- One step of the machine (00_scope.md R6): a host access, a reset, or a phase in progress. -/
def step (s : State) : Host.Outcome State Fault Refusal :=
  match fetch s with
  | .run i t => exec i t
  | .done o => o

/-- `s` with a table row's bits placed where the next step takes its instruction from: a command word as the
host's next write of CMD, a frame or packet form as the phase in progress (assumption log 2, 3). -/
def State.withFetchWord (s : State) (nbits w : Nat) : State :=
  match tableEncoding nbits w with
  | some e => s.withEncoded e
  | none => s

end Sys2Proof.Machine
end

