-- ==== Sys2Proof/Machine/Assembler.lean ====
section
/-! DEFINITION. The host-side statements and pseudo-instructions of 30_encoding.md R86 and R87, expanded to the
host accesses they stand for. The source has no assembler: this is notation over `Input`. -/

namespace Sys2Proof.Machine

/-- The named registers (10_state.md R22 to R27, R33). -/
inductive Reg where
  | cmd | status | addr | count | value | diagLen | diagSum | diagRxn
  | rptTag | rptButtons | rptMouse | rptKbdMod | rptKbdKeysLo | rptKbdKeysHi | rptContact
  | rptFingerXY (i : Fin 5)
  | rptFingerPalm (i : Fin 5)
deriving DecidableEq, Repr

/-- The host offset of a register (R22 to R27, R33). -/
def Reg.offset : Reg → Nat
  | .cmd => 0x000
  | .status => 0x004
  | .addr => 0x008
  | .count => 0x00C
  | .value => 0x010
  | .diagLen => 0x014
  | .diagSum => 0x018
  | .diagRxn => 0x01C
  | .rptTag => 0x100
  | .rptButtons => 0x104
  | .rptMouse => 0x108
  | .rptKbdMod => 0x10C
  | .rptKbdKeysLo => 0x110
  | .rptKbdKeysHi => 0x114
  | .rptContact => 0x118
  | .rptFingerXY i => 0x120 + 8 * i.val
  | .rptFingerPalm i => 0x124 + 8 * i.val

/-- A statement (R86). The level of the data-ready line at a read is the environment's (assumption log 11). -/
inductive Stmt where
  | write (r : Reg) (w : Word)
  | writeData (k : Nat) (w : Word)
  | writePkt (k : Nat) (w : Word)
  | read (r : Reg) (dr : Bool)
  | readData (k : Nat) (dr : Bool)
  | readPkt (k : Nat) (dr : Bool)
  | command (i : Instr)
deriving DecidableEq, Repr

/-- Which statements are legal. R86 says it of WRITE: it names CMD, ADDR or COUNT, or DATA or PKT with k a multiple
of 4, at most 52 for PKT; and a command is one of the command map. DESIGN CHOICE (assumption log 24): R86
gives no bound on the k of READ, and the model takes the bounds of WRITE for it too. -/
def Stmt.legal : Stmt → Bool
  | .write r _ => r == .cmd || r == .addr || r == .count
  | .writeData k _ | .readData k _ => k % 4 == 0
  | .writePkt k _ | .readPkt k _ => k % 4 == 0 && decide (k ≤ 52)
  | .read _ _ => true
  | .command i => i.isCommand

/-- The host access of a statement (R86); a form that is no command word has none. -/
def Stmt.inputs : Stmt → List Input
  | .write r w => [.write r.offset w]
  | .writeData k w => [.write (dataBase + k) w]
  | .writePkt k w => [.write (pktBase + k) w]
  | .read r dr => [.read r.offset dr]
  | .readData k dr => [.read (dataBase + k) dr]
  | .readPkt k dr => [.read (pktBase + k) dr]
  | .command i =>
    match encode i with
    | .command w => [.write 0x000 w]
    | .frame _ => []
    | .response _ _ => []
    | .packet _ => []

/-- A pseudo-instruction (R87). -/
inductive Pseudo where
  /-- `ema.write a, [b0, ...]` -/
  | emaWrite (a : Word) (payload : List Byte)
  /-- `ema.read a, n` -/
  | emaRead (a : Word) (n : Half)
  /-- `reg.read8 a` -/
  | regRead8 (a : Word)
  /-- `reg.write8 a, v` -/
  | regWrite8 (a : Word) (v : Byte)
  /-- `reg.read16 a` -/
  | regRead16 (a : Word)
  /-- `report.decode` -/
  | reportDecode
deriving DecidableEq, Repr

/-- The payload word at DATA[j..j+3], missing bytes as 0 (R87). -/
def payloadWord (payload : List Byte) (j : Nat) : Word :=
  le32 (byteAt payload j) (byteAt payload (j + 1)) (byteAt payload (j + 2)) (byteAt payload (j + 3))

/-- The exact expansion (R87). -/
def Pseudo.expand : Pseudo → List Stmt
  | .emaWrite a payload =>
    [.write .addr a, .write .count (BitVec.ofNat 32 payload.length)] ++
      (List.range ((payload.length + 3) / 4)).map
        (fun q => .writeData (4 * q) (payloadWord payload (4 * q))) ++
      [.command .emaWrite]
  | .emaRead a n => [.write .addr a, .write .count (n.setWidth 32), .command .emaRead]
  | .regRead8 a => [.write .addr a, .command .rd8]
  | .regWrite8 a v => [.write .addr a, .command (.wr8 v)]
  | .regRead16 a => [.write .addr a, .command .rd16]
  | .reportDecode => [.command .decodeAny]

/-- A host program as the accesses it issues (D31). -/
def programInputs (stmts : List Stmt) : List Input := stmts.flatMap Stmt.inputs

end Sys2Proof.Machine
end

