-- ==== Sys2Proof/Safety.lean ====
section
/-! DEFINITION. What a safe run is, in the terms the statements use: the form of a state between host accesses,
and the states a host program can reach. -/

namespace Sys2Proof.Machine

/-- The values STATUS[5:0] can take (60_exceptions.md R216): the two EMA flags together or apart, and each
other flag only alone. -/
def legalStatus (st : BitVec 6) : Bool :=
  st == 0 || st == 1 || st == 2 || st == 3 || st == 4 || st == 8 || st == 16 || st == 32

/-- DIAG as EmaReadCore leaves it (40_ema_codec.md R110 to R114): k is m or m - 1, the checksum is present
exactly in the second case, the length exactly when m ≥ 2, and an absent field reads 0. -/
def Diag.consistent (d : Diag) : Bool :=
  decide (d.delivered.toNat = d.counted.toNat + (if d.csumPresent then 1 else 0)) &&
    (d.lenPresent == decide (2 ≤ d.delivered.toNat)) &&
    (d.lenPresent || d.declLen == 0) && (d.csumPresent || d.rxCsum == 0)

/-- Is this the write frame of some address and payload, checksum included (R71)? -/
def isWriteFrame (bytes : List Byte) : Bool :=
  match decodeFrame bytes with
  | .ok (.emaWriteFrame a payload, []) => bytes == writeFrame a payload
  | _ => false

/-- Is this the read request whose response is asked for as `n` bytes (R72, R107)? -/
def isReadRequest (bytes : List Byte) (n : Nat) : Bool :=
  match decodeFrame bytes with
  | .ok (.emaReadRequest a count, []) => bytes == readRequest a count && n == count.toNat + 3
  | _ => false

/-- TRACE holds whole transactions (20_memory.md R55, R58, R34): write frames with stop, and reads, each a
request with no stop and then at once its response with stop, of at most the bytes asked for. -/
def traceOk : List Event → Bool
  | [] => true
  | .w bytes true :: rest => isWriteFrame bytes && traceOk rest
  | .w bytes false :: .q n true resp :: rest =>
    isReadRequest bytes n && decide (resp.length ≤ n) && traceOk rest
  | .w _ false :: _ => false
  | .q _ _ _ :: _ => false

/-- The eight bytes of `Preamble(dir, a, c)` (30_encoding.md R70), each by its value, for the statements. -/
def preambleBytes (dir : Byte) (a : Word) (c : Half) : List Byte :=
  [dir, 0x09, BitVec.ofNat 8 a.toNat, BitVec.ofNat 8 (a.toNat / 256), BitVec.ofNat 8 (a.toNat / 65536),
    BitVec.ofNat 8 (a.toNat / 16777216), BitVec.ofNat 8 c.toNat, BitVec.ofNat 8 (c.toNat / 256)]

/-- The EMA flags of STATUS as R115 and R116 set them, for a response already cut to the bytes asked for. -/
def emaFlagBits (c : Nat) (r : List Byte) : BitVec 6 :=
  (if r.length = c + 3 ∧
      (byteAt r (c + 2)).toNat = ((r.take (c + 2)).map BitVec.toNat).sum % 256 then 0 else 1) +
  (if 2 ≤ r.length ∧ (byteAt r 0).toNat + 256 * (byteAt r 1).toNat = min r.length (c + 2) then 0 else 2)

/-- A state between host accesses. -/
structure SafeState (s : State) : Prop where
  /-- no phase in progress (R6) -/
  noPhase : s.inflight = none
  /-- the bus is released at every command boundary (R34) -/
  released : s.busHeld = false
  /-- the buffers are in canonical form (R53) -/
  memory : Memory.wf s.mem = true
  /-- R216 -/
  flags : legalStatus s.status = true
  /-- R118 -/
  diagnostics : s.diag.consistent = true
  /-- R55, R34 -/
  transactions : traceOk s.trace = true

/-- The states a host program can reach, whatever its accesses and whatever the transport does. -/
inductive Reachable : State → Prop where
  | start (inputs : List Input) (replies : List Reply) :
    Reachable { State.reset with inputs := inputs, replies := replies }
  | next (s t : State) : Reachable s → step s = .next t → Reachable t

end Sys2Proof.Machine
end

