-- ==== Sys2Proof/Certificates/Slice0/Obligations.lean ====
section
/-! DEFINITION. The statements about ECRD, one `Obligations.<Name>` each, written from the numbered rules of
spec/. Where a statement names `s.draw`, that is the transport's next call (20_memory.md R57, R58): the
hypothesis says that it returns, and the statement holds whatever it returns. -/

open Sys2Proof Sys2Proof.Machine

/-! ### Reset and the host interface -/

/-- R36: the values after reset; STATUS[7] is no state and shows the live line. DATA and PKT are unspecified:
every buffer byte is a free value, whichever it is (log 6). -/
def Obligations.ResetGivesTheSpecsValues : Prop :=
  State.reset.addr = 0 ∧ State.reset.count = 0 ∧ State.reset.status = 0 ∧ State.reset.value = 0 ∧
  State.reset.diag.declLen = 0 ∧ State.reset.diag.counted = 0 ∧ State.reset.diag.rxCsum = 0 ∧
  State.reset.diag.calcCsum = 0 ∧ State.reset.diag.lenPresent = false ∧
  State.reset.diag.csumPresent = false ∧ State.reset.diag.delivered = 0 ∧
  State.reset.report = .empty ∧ State.reset.trace = [] ∧ State.reset.busHeld = false ∧
  (∀ dr, (hostReadWord State.reset 0x004 dr).getLsbD 7 = dr) ∧
  (∀ a, inBuffer a = true → State.reset.readByte a = Config.freeByte State.reset.epoch a)

/-- R240: reset sets every piece of state to its value of R36, the buffers unspecified anew, and only
between commands; inside one (the bus held, or a reset that arrives in a command) it is refused. That the
inputs still to come stay is the model's choice (log 17). -/
def Obligations.ResetTakesEffectOnlyBetweenCommands : Prop :=
  ∀ (s : State) (rest : List Input), s.inflight = none →
    (s.inputs = .reset :: rest → s.busHeld = false →
      ∃ t, step s = .next t ∧ t.addr = 0 ∧ t.count = 0 ∧ t.status = 0 ∧ t.value = 0 ∧
        t.diag.declLen = 0 ∧ t.diag.counted = 0 ∧ t.diag.rxCsum = 0 ∧ t.diag.calcCsum = 0 ∧
        t.diag.lenPresent = false ∧ t.diag.csumPresent = false ∧ t.diag.delivered = 0 ∧
        t.report = .empty ∧ t.trace = [] ∧ t.busHeld = false ∧ t.inputs = rest ∧
        (∀ a, inBuffer a = true → t.readByte a = Config.freeByte t.epoch a)) ∧
    (s.inputs = .reset :: rest → s.busHeld = true → step s = .refused .resetDuringCommand) ∧
    (s.inputs = .resetInCommand :: rest → step s = .refused .resetDuringCommand)

/-- R25: STATUS[7] is the data-ready line at the moment of the read, in every state, and so after every
command; bits 5:0 are the flags and every other bit is 0 (R24). -/
def Obligations.StatusReadShowsFlagsAndLiveLine : Prop :=
  ∀ (s : State) (dr : Bool) (i : Nat), i < 32 →
    (hostReadWord s 0x004 dr).getLsbD i =
      if i < 6 then s.status.getLsbD i else if i = 7 then dr else false

/-- What the host reads at the offsets of ADDR, COUNT, CMD, VALUE and the DIAG registers (R22, R23, R26,
R27): each field in its bits, the bits a register does not define 0. -/
def Obligations.HostReadsControlRegisters : Prop :=
  ∀ (s : State) (dr : Bool),
    hostReadWord s 0x000 dr = 0 ∧
    hostReadWord s 0x008 dr = s.addr ∧
    (hostReadWord s 0x00C dr).toNat = s.count.toNat ∧
    (hostReadWord s 0x010 dr).toNat = s.value.toNat ∧
    (hostReadWord s 0x014 dr).toNat = s.diag.declLen.toNat + 0x10000 * s.diag.counted.toNat ∧
    (hostReadWord s 0x018 dr).toNat =
      s.diag.rxCsum.toNat + 0x100 * s.diag.calcCsum.toNat + 0x10000 * s.diag.lenPresent.toNat +
        0x20000 * s.diag.csumPresent.toNat ∧
    (hostReadWord s 0x01C dr).toNat = s.diag.delivered.toNat

/-- R33: the report registers for each variant; a field of another variant reads 0; host writes are ignored. -/
def Obligations.HostReadsReportRegisters : Prop :=
  ∀ (s : State) (dr : Bool),
    (match s.report with
     | .empty => ∀ o, 0x100 ≤ o → o < 0x148 → hostReadWord s o dr = 0
     | .mouse b x y scroll pan =>
        hostReadWord s 0x100 dr = 0x06 ∧ (hostReadWord s 0x104 dr).toNat = b.toNat ∧
        (hostReadWord s 0x108 dr).toNat =
          x.toNat + 0x100 * y.toNat + 0x10000 * scroll.toNat + 0x1000000 * pan.toNat ∧
        ∀ o, 0x10C ≤ o → o < 0x148 → hostReadWord s o dr = 0
     | .keyboard m k =>
        hostReadWord s 0x100 dr = 0x08 ∧ hostReadWord s 0x104 dr = 0 ∧ hostReadWord s 0x108 dr = 0 ∧
        (hostReadWord s 0x10C dr).toNat = m.toNat ∧
        (hostReadWord s 0x110 dr).toNat =
          k[0].toNat + 0x100 * k[1].toNat + 0x10000 * k[2].toNat + 0x1000000 * k[3].toNat ∧
        (hostReadWord s 0x114 dr).toNat = k[4].toNat + 0x100 * k[5].toNat ∧
        ∀ o, 0x118 ≤ o → o < 0x148 → hostReadWord s o dr = 0
     | .absolute c f b =>
        hostReadWord s 0x100 dr = 0x09 ∧ (hostReadWord s 0x104 dr).toNat = b.toNat ∧
        (∀ o, 0x108 ≤ o → o < 0x118 → hostReadWord s o dr = 0) ∧
        (hostReadWord s 0x118 dr).toNat = c.toNat ∧
        ∀ i : Fin 5,
          (hostReadWord s (0x120 + 8 * i.val) dr).toNat =
            (f[i.val]).x.toNat + 0x10000 * (f[i.val]).y.toNat ∧
          (hostReadWord s (0x124 + 8 * i.val) dr).toNat = (f[i.val]).palmBits.toNat) ∧
    ∀ (o : Nat) (w : Word), 0x100 ≤ o → o < 0x148 → hostWriteWord s o w = s

/-- A host read in the space completes, brings the word of its offset, and changes nothing of ECRD: only
the input is used up and the model's record grows (R55; the record is the model's own, log 12). -/
def Obligations.HostReadHasNoSideEffect : Prop :=
  ∀ (s : State) (o : Nat) (dr : Bool) (rest : List Input),
    s.inflight = none → s.inputs = .read o dr :: rest → o < 0x11000 →
    step s = .next { s with
      inputs := rest, hostReads := s.hostReads ++ [{ offset := o, value := hostReadWord s o dr }] }

/-- A host write of ADDR stores all 32 bits, of COUNT bits 15:0, at any offset of the word (R22, R52), and
changes nothing else. -/
def Obligations.HostWriteStoresAddrAndCount : Prop :=
  ∀ (s : State) (o : Nat) (w : Word) (rest : List Input),
    s.inflight = none → s.inputs = .write o w :: rest →
    (0x008 ≤ o → o < 0x00C → step s = .next { s with inputs := rest, addr := w }) ∧
    (0x00C ≤ o → o < 0x010 →
      step s = .next { s with inputs := rest, count := BitVec.ofNat 16 (w.toNat % 65536) })

/-- R53: which offsets hold a buffer byte; a window word holds its four bytes little-endian; a host write
of a window word writes those of its four bytes that exist and no other byte; a byte past the end reads 0. -/
def Obligations.WindowWordsHoldFourBytes : Prop :=
  (∀ a, inBuffer a = true ↔
    (∃ k, k < 53 ∧ a = 0x800 + k) ∨ (∃ k, k < Config.dataCap ∧ a = 0x1000 + k)) ∧
  (∀ (s : State) (a : Nat), inBuffer a = false → s.readByte a = 0) ∧
  ∀ (s : State) (b : Nat) (w : Word), b % 4 = 0 → 0x800 ≤ b →
    (∀ dr, (hostReadWord s b dr).toNat =
      (s.readByte b).toNat + 0x100 * (s.readByte (b + 1)).toNat +
        0x10000 * (s.readByte (b + 2)).toNat + 0x1000000 * (s.readByte (b + 3)).toNat) ∧
    (∀ j, j < 4 → inBuffer (b + j) = true →
      (hostWriteWord s b w).readByte (b + j) = BitVec.ofNat 8 (w.toNat / 256 ^ j)) ∧
    (∀ a, a < b ∨ b + 4 ≤ a → (hostWriteWord s b w).readByte a = s.readByte a) ∧
    hostWriteWord s b w = { s with mem := (hostWriteWord s b w).mem }

/-- R52: the low two offset bits are ignored; an offset no register or buffer byte occupies reads 0; a
write of one, or of a read-only register, is ignored. -/
def Obligations.UnmappedOffsetsReadZeroAndIgnoreWrites : Prop :=
  ∀ (s : State) (o : Nat) (dr : Bool) (w : Word),
    hostReadWord s o dr = hostReadWord s (o - o % 4) dr ∧
    hostWriteWord s o w = hostWriteWord s (o - o % 4) w ∧
    ((0x020 ≤ o ∧ o < 0x100) ∨ (0x11C ≤ o ∧ o < 0x120) ∨ (0x148 ≤ o ∧ o < 0x800) ∨
        (0x838 ≤ o ∧ o < 0x1000) ∨ 0x1000 + Config.dataCap ≤ o - o % 4 →
      hostReadWord s o dr = 0 ∧ hostWriteWord s o w = s) ∧
    ((0x004 ≤ o ∧ o < 0x008) ∨ (0x010 ≤ o ∧ o < 0x020) ∨ (0x100 ≤ o ∧ o < 0x148) →
      hostWriteWord s o w = s)

/-- Any other host write in the space only stores (R55), and an access outside 0x00000 to 0x10FFF stops by
name (the model's choice, log 13). -/
def Obligations.HostAccessesStoreOrStop : Prop :=
  ∀ (s : State) (o : Nat) (rest : List Input), s.inflight = none →
    (∀ w, s.inputs = .write o w :: rest → 4 ≤ o → o < 0x11000 →
      step s = .next (hostWriteWord { s with inputs := rest } o w)) ∧
    (∀ w, s.inputs = .write o w :: rest → 0x11000 ≤ o → step s = .fault .offsetOutsideSpace) ∧
    (∀ dr, s.inputs = .read o dr :: rest → 0x11000 ≤ o → step s = .fault .offsetOutsideSpace)

/-- With no access to come and no phase in progress the step changes nothing (log 2). -/
def Obligations.NoInputNoChange : Prop :=
  ∀ s : State, s.inflight = none → s.inputs = [] → step s = .next s

/-! ### Commands: decoding, the prologue, the step -/

/-- R23: a host write of CMD starts the command its word encodes; a read of CMD returns 0. -/
def Obligations.CommandWordStepRunsItsCommand : Prop :=
  ∀ (s : State) (o : Nat) (w : Word) (rest : List Input) (i : Instr) (dr : Bool),
    s.inflight = none → s.inputs = .write o w :: rest → o < 4 → decode (.command w) = .ok i →
    step s = exec i { s with inputs := rest } ∧ hostReadWord s o dr = 0

/-- A phase put in `inflight` is the next step (log 3): the form its bytes, the transport's reply or PKT
decode to, when it is well-formed. That bytes after a frame's end are dropped is the model's choice (log 25). -/
def Obligations.PhaseStepRunsItsForm : Prop :=
  ∀ (s : State) (i : Instr), i.wellFormed = true →
    (∀ bytes, s.inflight = some (.frame bytes) → decode (.frame bytes) = .ok i →
      step s = exec i { s with inflight := none }) ∧
    (s.inflight = some .classify → decode (.packet s.pktBytes) = .ok i →
      step s = exec i { s with inflight := none }) ∧
    (∀ count resp, s.inflight = some (.awaitResponse count) → s.draw.1 = .returns resp →
      decode (.response count resp) = .ok i →
      step s = exec i { s.draw.2 with inflight := none })

/-- R83: the command words, each with its command, and no other word decodes. -/
def Obligations.CommandWordsAreExactlyTheTable : Prop :=
  ∀ (w : Word) (i : Instr), decode (.command w) = .ok i ↔
    match i with
    | .emaWrite => w = 0x00000001#32
    | .emaRead => w = 0x00000002#32
    | .rd8 => w = 0x00000003#32
    | .wr8 v => w.toNat = 0x04 + 256 * v.toNat
    | .rd16 => w = 0x00000005#32
    | .decodeAny => w = 0x00000010#32
    | .decodeMouse => w = 0x00000610#32
    | .decodeKeyboard => w = 0x00000810#32
    | .decodeAbsolute => w = 0x00000910#32
    | .qvalid n => w.toNat = 0x20 + 256 * n.toNat
    | .qcontact n => w.toNat = 0x21 + 256 * n.toNat
    | .qbutton m => w.toNat = 0x22 + 256 * m.toNat
    | .emaWriteFrame _ _ | .emaReadRequest _ _ | .emaReadResponse _ _ | .reportMouse _ _ _ _ _
    | .reportKeyboard _ _ | .reportAbsolute _ _ _ | .reportEmpty _ => False

/-- A few words of the test vectors (V-C1 to V-C10) and frames (V-W4, V-P2), written out from the tables. -/
def Obligations.ListedEncodingsDecode : Prop :=
  decode (.command 0x00000001) = .ok .emaWrite ∧
  decode (.command 0x0000FF04) = .ok (.wr8 0xFF) ∧
  decode (.command 0x00000910) = .ok .decodeAbsolute ∧
  decode (.command 0x00000521) = .ok (.qcontact 5) ∧
  decode (.command 0x00000101) = .error .argNotZero ∧
  decode (.command 0x80000022) = .error .reservedBits ∧
  decode (.command 0x00000710) = .error .unknownKind ∧
  decode (.command 0x00000011) = .error .unknownOp ∧
  decode (.frame [0x00, 0x09, 0x00, 0x00, 0x00, 0x00, 0x02, 0x00, 0x01, 0x02, 0x0E]) =
    .ok (.emaWriteFrame 0x00000000 [0x01, 0x02]) ∧
  decode (.frame [0x01, 0x09, 0x0A, 0x00, 0x00, 0x20, 0x02, 0x00]) =
    .ok (.emaReadRequest 0x2000000A 2)

/-- Decode and encode agree for every well-formed instruction and every operand its encoding admits. -/
def Obligations.DecodeUndoesEncode : Prop :=
  ∀ i : Instr, i.wellFormed = true → decode (encode i) = .ok i

/-- A frame is read back from the head of a byte stream, and the bytes after it are left (R70 to R74). -/
def Obligations.FramesAreReadBackFromAStream : Prop :=
  ∀ (a : Word) (rest : List Byte),
    (∀ p : List Byte, p.length ≤ 255 →
      decodeFrame (writeFrame a p ++ rest) = .ok (.emaWriteFrame a p, rest)) ∧
    (∀ c : Half, decodeFrame (readRequest a c ++ rest) = .ok (.emaReadRequest a c, rest))

/-- R76 to R79: the layout each report ID selects, by offset. -/
def Obligations.PacketsDecodeByTheirLayout : Prop :=
  ∀ p : List Byte, (h : p.length = 53) →
    (p[2] = 0x06 → decode (.packet p) = .ok (.reportMouse p[3] p[4] p[5] p[6] p[7])) ∧
    (p[2] = 0x08 →
      decode (.packet p) = .ok (.reportKeyboard p[3] #v[p[5], p[6], p[7], p[8], p[9], p[10]])) ∧
    (p[2] = 0x09 → ∃ f : Vector FingerData 5,
      decode (.packet p) = .ok (.reportAbsolute p[3] f p[29]) ∧
      ∀ i : Fin 5, (f[i.val]).palmBits = p[4 + 5 * i.val] ∧
        (f[i.val]).x.toNat = (p[5 + 5 * i.val]).toNat + 256 * (p[6 + 5 * i.val]).toNat ∧
        (f[i.val]).y.toNat = (p[7 + 5 * i.val]).toNat + 256 * (p[8 + 5 * i.val]).toNat) ∧
    (p[2] ≠ 0x06 → p[2] ≠ 0x08 → p[2] ≠ 0x09 → decode (.packet p) = .ok (.reportEmpty p[2]))

/-- R84: an Illegal word or an illegal count leaves CMD_ERR alone in STATUS[5:0] and changes nothing else;
and every command starts from cleared flags, so its outcome does not depend on the flags before it. -/
def Obligations.PrologueRefusesByValueAndClearsFlags : Prop :=
  (∀ (s : State) (o : Nat) (w : Word) (rest : List Input) (e : DecodeError),
    s.inflight = none → s.inputs = .write o w :: rest → o < 4 → decode (.command w) = .error e →
    step s = .next { s with inputs := rest, status := 0b010000 }) ∧
  (∀ (s : State) (i : Instr), i.isCommand = true → countLegal i s = false →
    exec i s = .next { s with status := 0b010000 }) ∧
  (∀ (s : State) (i : Instr) (st : BitVec 6), i.isCommand = true →
    exec i s = exec i { s with status := st })

/-- R85: the two counts that are illegal; and DATA holds every byte of a legal count. -/
def Obligations.CountIsIllegalInTwoCases : Prop :=
  (∀ (s : State) (i : Instr), i.isCommand = true →
    (countLegal i s = false ↔
      (i = .emaWrite ∧ 255 < s.count.toNat) ∨ (i = .emaRead ∧ Config.dataCap < s.count.toNat))) ∧
  ∀ (s : State) (k : Nat), (countLegal .emaWrite s = true ∨ countLegal .emaRead s = true) →
    k < s.count.toNat → inBuffer (0x1000 + k) = true

/-! ### The EMA commands -/

/-- R100, R101, R102: EMA_WRITE sends its frame in one event, with stop; the checksum is the sum mod 256 of
preamble and payload; nothing else changes. COUNT above 255 sends nothing. -/
def Obligations.EmaWriteSendsOneFrame : Prop :=
  ∀ (s : State) (ack : List Byte),
    let n := s.count.toNat
    let body : List Byte :=
      [0x00, 0x09, BitVec.ofNat 8 s.addr.toNat, BitVec.ofNat 8 (s.addr.toNat / 256),
        BitVec.ofNat 8 (s.addr.toNat / 65536), BitVec.ofNat 8 (s.addr.toNat / 16777216),
        BitVec.ofNat 8 n, BitVec.ofNat 8 (n / 256)] ++
      (List.range n).map (fun k => s.readByte (0x1000 + k))
    (n ≤ 255 → s.draw.1 = .returns ack →
      exec .emaWrite s = .next { s.draw.2 with
        status := 0
        busHeld := false
        trace := s.trace ++ [.w (body ++ [BitVec.ofNat 8 (body.map BitVec.toNat).sum]) true] }) ∧
    (255 < n → exec .emaWrite s = .next { s with status := 0b010000 })

/-- R103: every frame EMA_WRITE sends ends in the sum of the bytes before it, and reads back as its
address and payload. -/
def Obligations.SentFramesVerify : Prop :=
  ∀ (s t : State), s.count.toNat ≤ 255 → exec .emaWrite s = .next t →
    ∃ frame : List Byte, t.trace = s.trace ++ [.w frame true] ∧
      frame.length = 9 + s.count.toNat ∧
      (byteAt frame (8 + s.count.toNat)).toNat =
        ((frame.take (8 + s.count.toNat)).map BitVec.toNat).sum % 256 ∧
      frame.take 8 = preambleBytes 0x00 s.addr s.count ∧
      decode (.frame frame) = .ok (.emaWriteFrame s.addr (s.dataBytes s.count.toNat))

/-- R105, R106, R107, R117: EMA_READ sends the 8-byte request with no stop and at once asks for COUNT + 3 bytes
with stop; writes the flags; fills DATA with the payload bytes that arrived, whatever the flags, and
leaves the others; and changes nothing else but DIAG (R118). A COUNT above DATA_CAP sends nothing. -/
def Obligations.EmaReadValidatesAndFillsData : Prop :=
  ∀ (s : State) (ack resp : List Byte),
    let c := s.count.toNat
    let r := resp.take (c + 3)
    (c ≤ Config.dataCap → s.draw.1 = .returns ack → s.draw.2.draw.1 = .returns resp →
      ∃ t, exec .emaRead s = .next t ∧
        t.trace = s.trace ++ [.w (preambleBytes 0x01 s.addr s.count) false, .q (c + 3) true r] ∧
        t.status = emaFlagBits c r ∧
        t.diag = (emaReadCore c r).diag ∧
        (∀ j, j < c → t.readByte (0x1000 + j) =
          if 2 + j < r.length then byteAt r (2 + j) else s.readByte (0x1000 + j)) ∧
        (∀ a, a < 0x1000 ∨ 0x1000 + c ≤ a → t.readByte a = s.readByte a) ∧
        t.addr = s.addr ∧ t.count = s.count ∧ t.value = s.value ∧ t.report = s.report ∧
        t.busHeld = false ∧ t.inflight = s.inflight ∧ t.inputs = s.inputs ∧
        t.epoch = s.epoch ∧ t.hostReads = s.hostReads ∧ c + 3 ≤ 65535) ∧
    (Config.dataCap < c → exec .emaRead s = .next { s with status := 0b010000 })

/-- R110 to R116 and R118: what the validator computes, for a response of any length. -/
def Obligations.ValidatorComputesItsFields : Prop :=
  ∀ (c : Nat) (resp : List Byte),
    let m := min resp.length (c + 3)
    let k := min m (c + 2)
    let calc8 := ((resp.take k).map BitVec.toNat).sum % 256
    let declared := if 2 ≤ m then (byteAt resp 0).toNat + 256 * (byteAt resp 1).toNat else 0
    let rx := if m = c + 3 then (byteAt resp (c + 2)).toNat else 0
    let res := emaReadCore c resp
    (res.csumMismatch = true ↔ ¬ (m = c + 3) ∨ rx ≠ calc8) ∧
    (res.lenMismatch = true ↔ ¬ (2 ≤ m) ∨ k ≠ declared) ∧
    res.diag.declLen.toNat = declared ∧ res.diag.calcCsum.toNat = calc8 ∧
    res.diag.rxCsum.toNat = rx ∧ res.diag.lenPresent = decide (2 ≤ m) ∧
    res.diag.csumPresent = decide (m = c + 3) ∧
    (c ≤ 65532 → res.diag.counted.toNat = k ∧ res.diag.delivered.toNat = m)

/-- R119: the flags are 0 exactly when the response is complete, its checksum matches and its declared
length is c + 2; each of the four combinations of the two flags occurs. -/
def Obligations.GoodReadExactly : Prop :=
  (∀ (c : Nat) (resp : List Byte), resp.length ≤ c + 3 →
    ((emaReadCore c resp).csumMismatch = false ∧ (emaReadCore c resp).lenMismatch = false ↔
      resp.length = c + 3 ∧
      (byteAt resp (c + 2)).toNat = ((resp.take (c + 2)).map BitVec.toNat).sum % 256 ∧
      (byteAt resp 0).toNat + 256 * (byteAt resp 1).toNat = c + 2)) ∧
  ∀ cs len : Bool, ∃ (c : Nat) (resp : List Byte),
    (emaReadCore c resp).csumMismatch = cs ∧ (emaReadCore c resp).lenMismatch = len

/-- R120: one changed byte at a position 0 to c + 1 of a complete response whose checksum matched is
always seen. -/
def Obligations.OneCorruptByteIsSeen : Prop :=
  ∀ (c : Nat) (resp : List Byte) (p : Nat) (b : Byte), resp.length = c + 3 →
    (emaReadCore c resp).csumMismatch = false → p < c + 2 → byteAt resp p ≠ b →
    (emaReadCore c (resp.set p b)).csumMismatch = true

/-- A reordering of the payload is NOT seen (R121, second case): the flags stay what they were. -/
def Obligations.ReorderedPayloadIsNotSeen : Prop :=
  ∀ (b0 b1 cs : Byte) (p q : List Byte), p.Perm q →
    (emaReadCore p.length ([b0, b1] ++ p ++ [cs])).csumMismatch =
        (emaReadCore p.length ([b0, b1] ++ q ++ [cs])).csumMismatch ∧
      (emaReadCore p.length ([b0, b1] ++ p ++ [cs])).lenMismatch =
        (emaReadCore p.length ([b0, b1] ++ q ++ [cs])).lenMismatch

/-- R122: a complete response with a correct checksum and L ≠ c + 2 sets LEN_MISMATCH alone. -/
def Obligations.WrongLengthAloneSetsLenMismatch : Prop :=
  (∀ (c : Nat) (resp : List Byte), resp.length = c + 3 →
    (byteAt resp (c + 2)).toNat = ((resp.take (c + 2)).map BitVec.toNat).sum % 256 →
    (byteAt resp 0).toNat + 256 * (byteAt resp 1).toNat ≠ c + 2 →
    (emaReadCore c resp).lenMismatch = true ∧ (emaReadCore c resp).csumMismatch = false) ∧
  (emaReadCore 2 [0x05, 0x00, 0x34, 0x12, 0x4B]).lenMismatch = true ∧
  (emaReadCore 2 [0x05, 0x00, 0x34, 0x12, 0x4B]).csumMismatch = false

/-- R140, R141: RD8 is a read of count 1 at ADDR; VALUE takes the payload byte, zero-extended, when the flags
are 0, and otherwise keeps its value; only STATUS, DIAG, VALUE and TRACE are written. -/
def Obligations.Rd8ReadsOneByte : Prop :=
  ∀ (s : State) (ack resp : List Byte), s.draw.1 = .returns ack → s.draw.2.draw.1 = .returns resp →
    let r := resp.take 4
    (emaFlagBits 1 r = 0 → r.length = 4) ∧
    exec .rd8 s = .next { s.draw.2.draw.2 with
      trace := s.trace ++ [.w (preambleBytes 0x01 s.addr 1) false, .q 4 true r]
      busHeld := false
      status := emaFlagBits 1 r
      diag := (emaReadCore 1 r).diag
      value := if emaFlagBits 1 r = 0 then BitVec.ofNat 16 (byteAt r 2).toNat else s.value }

/-- R144, R141: RD16 is one read of count 2; VALUE takes the two payload bytes, low byte first, when the
flags are 0, and otherwise keeps its value. -/
def Obligations.Rd16ReadsTwoBytesLowFirst : Prop :=
  ∀ (s : State) (ack resp : List Byte), s.draw.1 = .returns ack → s.draw.2.draw.1 = .returns resp →
    let r := resp.take 5
    exec .rd16 s = .next { s.draw.2.draw.2 with
      trace := s.trace ++ [.w (preambleBytes 0x01 s.addr 2) false, .q 5 true r]
      busHeld := false
      status := emaFlagBits 2 r
      diag := (emaReadCore 2 r).diag
      value := if emaFlagBits 2 r = 0 then
          BitVec.ofNat 16 ((byteAt r 2).toNat + 256 * (byteAt r 3).toNat) else s.value }

/-- R142: WR8 sends the write frame of count 1 with ARG8 as its payload and changes nothing else; it is the
frame EMA_WRITE sends with COUNT = 1 and DATA[0] = v. -/
def Obligations.Wr8SendsOneByteFrame : Prop :=
  ∀ (s : State) (v : Byte) (ack : List Byte), s.draw.1 = .returns ack →
    let body : List Byte :=
      [0x00, 0x09, BitVec.ofNat 8 s.addr.toNat, BitVec.ofNat 8 (s.addr.toNat / 256),
        BitVec.ofNat 8 (s.addr.toNat / 65536), BitVec.ofNat 8 (s.addr.toNat / 16777216), 0x01, 0x00, v]
    exec (.wr8 v) s = .next { s.draw.2 with
      status := 0
      busHeld := false
      trace := s.trace ++ [.w (body ++ [BitVec.ofNat 8 (body.map BitVec.toNat).sum]) true] } ∧
    ∀ t u, exec (.wr8 v) s = .next t →
      exec .emaWrite { s.writeByte 0x1000 v with count := 1 } = .next u → t.trace = u.trace

/-- A transport call that never returns leaves ECRD blocked (R59, R223): a fault by name, at the first call
of any bus command and at the second call of a read. -/
def Obligations.BlockedTransportStopsEveryBusCommand : Prop :=
  ∀ (s : State) (i : Instr),
    (s.draw.1 = .neverReturns → countLegal i s = true →
      (i = .emaWrite ∨ i = .emaRead ∨ i = .rd8 ∨ i = .rd16 ∨ ∃ v, i = .wr8 v) →
      exec i s = .fault .transportNeverReturns) ∧
    (∀ ack, s.draw.1 = .returns ack → s.draw.2.draw.1 = .neverReturns → countLegal i s = true →
      (i = .emaRead ∨ i = .rd8 ∨ i = .rd16) → exec i s = .fault .transportNeverReturns)

/-- R56, R57, R58: the primitives of a transaction, with DEV_ADDR: for a request, one available-count query before
each byte read and one at the end. That a query holds only whether its answer is nonzero, and that the
bytes are those ECRD used, is the model's choice (log 21). And a bus write that returns appends its event
to TRACE. -/
def Obligations.TransactionsUseTheDeviceAddress : Prop :=
  (∀ (bytes : List Byte) (stop : Bool), (Event.w bytes stop).primitives =
    [.beginTransaction Config.devAddr] ++ bytes.map .writeByte ++ [.endTransaction stop]) ∧
  (∀ (n : Nat) (stop : Bool) (resp : List Byte), (Event.q n stop resp).primitives =
    [.requestBytes Config.devAddr n stop] ++
      resp.flatMap (fun b => [.availableCount true, .readByte b]) ++ [.availableCount false]) ∧
  ∀ (s : State) (ack bytes : List Byte) (stop : Bool), s.draw.1 = .returns ack →
    ∃ t, busWrite bytes stop s = .next t ∧ t.trace = s.trace ++ [.w bytes stop]

/-- R64, R145: every EMA_READ, RD8 and RD16 issues its own request and records the response the transport
gives to it, its second call of the command, cut to the bytes asked for; and every WR8 sends the frame of
ADDR and its own operand; whatever came before. -/
def Obligations.EveryCallIsAFreshRoundTrip : Prop :=
  ∀ (s t : State) (i : Instr), exec i s = .next t → countLegal i s = true →
    (∀ c : Half, (i = .emaRead ∧ c = s.count) ∨ (i = .rd8 ∧ c = 1) ∨ (i = .rd16 ∧ c = 2) →
      ∃ resp, s.draw.2.draw.1 = .returns resp ∧
        t.trace = s.trace ++ [.w (preambleBytes 0x01 s.addr c) false,
          .q (c.toNat + 3) true (resp.take (c.toNat + 3))]) ∧
    (∀ v, i = .wr8 v → t.trace = s.trace ++ [.w (writeFrame s.addr [v]) true])

/-! ### The report decoder -/

/-- R160, R165, R166: DECODE in its four forms, by PKT[2], with the expected kind tested first; only REPORT
and STATUS change. -/
def Obligations.DecodeClassifiesThePacket : Prop :=
  ∀ (s : State) (i : Instr) (e : Byte),
    (i = .decodeAny ∧ e = 0x00) ∨ (i = .decodeMouse ∧ e = 0x06) ∨ (i = .decodeKeyboard ∧ e = 0x08) ∨
      (i = .decodeAbsolute ∧ e = 0x09) →
    let p := fun k => s.readByte (0x800 + k)
    let finger := fun j => ({ palmBits := p (4 + 5 * j), x := le16 (p (5 + 5 * j)) (p (6 + 5 * j)),
                              y := le16 (p (7 + 5 * j)) (p (8 + 5 * j)) } : FingerData)
    exec i s = .next
      (if e ≠ 0x00 ∧ p 2 ≠ e then { s with report := .empty, status := 0b001000 }
       else if p 2 = 0x06 then
        { s with report := .mouse (p 3) (p 4) (p 5) (p 6) (p 7), status := 0 }
       else if p 2 = 0x08 then
        { s with report := .keyboard (p 3) #v[p 5, p 6, p 7, p 8, p 9, p 10], status := 0 }
       else if p 2 = 0x09 then
        { s with report := .absolute (p 3) #v[finger 0, finger 1, finger 2, finger 3, finger 4] (p 29),
                 status := 0 }
       else { s with report := .empty, status := 0b000100 })

/-- R162: the deltas are two's complement, in the order xDelta, yDelta, scrollDelta, panDelta at offsets 4
to 7, buttons unsigned at offset 3. -/
def Obligations.MouseDeltasAreSigned : Prop :=
  ∀ (s : State), s.pktByte 2 = 0x06 →
    ∃ (t : State) (b x y scroll pan : Byte), exec .decodeAny s = .next t ∧
      t.report = .mouse b x y scroll pan ∧ b.toNat = (s.pktByte 3).toNat ∧
      (∀ (d : Byte) (k : Nat),
        (d = x ∧ k = 4) ∨ (d = y ∧ k = 5) ∨ (d = scroll ∧ k = 6) ∨ (d = pan ∧ k = 7) →
        d.toInt = if (s.pktByte k).toNat < 128 then ((s.pktByte k).toNat : Int)
          else ((s.pktByte k).toNat : Int) - 256) ∧
      (s.pktByte 4 = 0xFE → x.toInt = -2) ∧ (s.pktByte 4 = 0x80 → x.toInt = -128) ∧
      (s.pktByte 4 = 0x7F → x.toInt = 127)

/-- R168: DECODE's REPORT and flags depend on PKT[2..29] alone; it writes no buffer and issues no
transaction; decoding the same PKT again gives the same state. -/
def Obligations.DecodeIsAFunctionOfThePacket : Prop :=
  ∀ (s u s' u' : State) (i : Instr),
    (i = .decodeAny ∨ i = .decodeMouse ∨ i = .decodeKeyboard ∨ i = .decodeAbsolute) →
    (∀ k, 2 ≤ k → k ≤ 29 → u.pktByte k = s.pktByte k) →
    exec i s = .next s' → exec i u = .next u' →
    u'.report = s'.report ∧ u'.status = s'.status ∧ s'.mem = s.mem ∧ s'.trace = s.trace ∧
      exec i s' = .next s'

/-! ### The report queries -/

/-- R190, R191: QVALID answers, in QRESULT alone, whether finger n of an Absolute report has its confidence bit
set and its palm-reject bit clear, whichever bit that is. CONF_MASK is 0x02 (R172). -/
def Obligations.QvalidAnswersPalmBits : Prop :=
  ∀ (s : State) (n : Byte), ∃ b : Bool,
    exec (.qvalid n) s = .next { s with status := if b then 0b100000 else 0 } ∧
    (b = true ↔ ∃ (c : Byte) (f : Vector FingerData 5) (bt : Byte) (h : n.toNat < 5),
      s.report = .absolute c f bt ∧ (f[n.toNat]).palmBits &&& 0x02 ≠ 0 ∧
      (f[n.toNat]).palmBits &&& Config.palmRejectMask = 0)

/-- R192: QCONTACT answers bit n of contactFlags for n in 0..4 of an Absolute report, else 0. -/
def Obligations.QcontactAnswersContactBit : Prop :=
  ∀ (s : State) (n : Byte), ∃ b : Bool,
    exec (.qcontact n) s = .next { s with status := if b then 0b100000 else 0 } ∧
    (b = true ↔ ∃ (c : Byte) (f : Vector FingerData 5) (bt : Byte),
      s.report = .absolute c f bt ∧ n.toNat ≤ 4 ∧ c.toNat / 2 ^ n.toNat % 2 = 1)

/-- R194: QBUTTON answers whether buttons and mask share a bit, for a Mouse or an Absolute report; b is the
byte the host reads in RPT_BUTTONS. -/
def Obligations.QbuttonAnswersMaskedButtons : Prop :=
  ∀ (s : State) (mask : Byte), ∃ b : Bool,
    exec (.qbutton mask) s = .next { s with status := if b then 0b100000 else 0 } ∧
    (b = true ↔ ∃ bt : Byte, bt &&& mask ≠ 0 ∧
      ((∃ x y scroll pan, s.report = .mouse bt x y scroll pan) ∨ ∃ c f, s.report = .absolute c f bt)) ∧
    ∀ dr, (b = true ↔ (BitVec.ofNat 8 (hostReadWord s 0x104 dr).toNat) &&& mask ≠ 0)

/-- R193: for one finger every combination of the two results is possible. -/
def Obligations.ContactAndValidityAreIndependent : Prop :=
  ∀ (n : Byte) (contact valid : Bool), n.toNat < 5 →
    ∃ s t u : State, exec (.qcontact n) s = .next t ∧ exec (.qvalid n) s = .next u ∧
      t.flag .qresult = contact ∧ u.flag .qresult = valid

/-- R195, R196: QBUTTON on a Keyboard report gives 0 for every mask; on Empty every query gives 0 for every
operand. -/
def Obligations.QueriesGiveZeroOffTheirVariants : Prop :=
  ∀ (s : State) (a : Byte),
    ((∃ m k, s.report = .keyboard m k) → exec (.qbutton a) s = .next { s with status := 0 }) ∧
    (s.report = .empty →
      exec (.qvalid a) s = .next { s with status := 0 } ∧
      exec (.qcontact a) s = .next { s with status := 0 } ∧
      exec (.qbutton a) s = .next { s with status := 0 })

/-- R197: a query writes STATUS alone, and the same query again gives the same state. -/
def Obligations.QueriesWriteOnlyTheirResult : Prop :=
  ∀ (s : State) (i : Instr) (a : Byte), i = .qvalid a ∨ i = .qcontact a ∨ i = .qbutton a →
    ∃ t, exec i s = .next t ∧ t = { s with status := t.status } ∧
      (t.status = 0 ∨ t.status = 0b100000) ∧ exec i t = .next t

/-! ### The frame and packet forms -/

/-- R71: the write frame of address a and payload P, 9 + n bytes, its last byte the sum mod 256 of the others,
byte 7 always 0, transmitted with a stop. -/
def Obligations.WriteFrameFormSendsWithStop : Prop :=
  ∀ (s : State) (a : Word) (p ack : List Byte), p.length ≤ 255 → s.draw.1 = .returns ack →
    let body := preambleBytes 0x00 a (BitVec.ofNat 16 p.length) ++ p
    exec (.emaWriteFrame a p) s = .next { s.draw.2 with
      busHeld := false
      trace := s.trace ++ [.w (body ++ [BitVec.ofNat 8 (body.map BitVec.toNat).sum]) true] } ∧
    (body ++ [BitVec.ofNat 8 (body.map BitVec.toNat).sum]).length = 9 + p.length ∧
    byteAt body 7 = 0

/-- R72, R106: the read request is exactly 8 bytes, with no stop, and the bus is held; that the response phase
then stands in `inflight` is the model's form (log 3). -/
def Obligations.ReadRequestFormHoldsTheBus : Prop :=
  ∀ (s : State) (a : Word) (count : Half) (ack : List Byte), s.draw.1 = .returns ack →
    let bytes : List Byte :=
      [0x01, 0x09, BitVec.ofNat 8 a.toNat, BitVec.ofNat 8 (a.toNat / 256),
        BitVec.ofNat 8 (a.toNat / 65536), BitVec.ofNat 8 (a.toNat / 16777216),
        BitVec.ofNat 8 count.toNat, BitVec.ofNat 8 (count.toNat / 256)]
    exec (.emaReadRequest a count) s = .next { s.draw.2 with
      busHeld := true
      trace := s.trace ++ [.w bytes false]
      inflight := some (.awaitResponse count) }

/-- The response phase by itself (R73, R110 to R118, log 3 and 5): it releases the bus, writes the flags and
DIAG, and fills DATA with the payload that arrived, leaving every other byte and every other field. -/
def Obligations.ReadResponseFormFillsData : Prop :=
  ∀ (s : State) (count : Half) (bytes : List Byte), count.toNat ≤ Config.dataCap →
    let c := count.toNat
    let r := bytes.take (c + 3)
    ∃ t, exec (.emaReadResponse count bytes) s = .next t ∧
      t.trace = s.trace ++ [.q (c + 3) true r] ∧ t.busHeld = false ∧
      t.status = (s.status &&& 0b111100) ||| emaFlagBits c r ∧ t.diag = (emaReadCore c r).diag ∧
      (∀ j, j < c → t.readByte (0x1000 + j) =
        if 2 + j < r.length then byteAt r (2 + j) else s.readByte (0x1000 + j)) ∧
      (∀ a, a < 0x1000 ∨ 0x1000 + c ≤ a → t.readByte a = s.readByte a) ∧
      t = { s with trace := t.trace, busHeld := t.busHeld, status := t.status, diag := t.diag,
                   mem := t.mem }

/-- The packet forms complete (R76 to R79, R165, log 3): each loads its variant, whole, into REPORT; Empty raises
UNRECOGNIZED; nothing else changes. -/
def Obligations.PacketFormsLoadTheReport : Prop :=
  ∀ s : State,
    (∀ b x y scroll pan, exec (.reportMouse b x y scroll pan) s =
      .next { s with report := .mouse b x y scroll pan }) ∧
    (∀ m k, exec (.reportKeyboard m k) s = .next { s with report := .keyboard m k }) ∧
    (∀ c f b, exec (.reportAbsolute c f b) s = .next { s with report := .absolute c f b }) ∧
    (∀ id, exec (.reportEmpty id) s =
      .next { s with report := .empty, status := s.status ||| 0b000100 })

/-- EMA_WRITE, WR8, EMA_READ and DECODE ANY: the atomic command is its phases run one after the other, with the same
outcome in every state, a stop included (R6, R55, R107, R160; the phases as steps are the model's form, log 3). -/
def Obligations.CommandsAreTheirPhasesInOrder : Prop :=
  ∀ s : State, s.inflight = none →
    (s.count.toNat ≤ 255 →
      exec .emaWrite s = core.run 1 { s with
        status := 0
        inflight := some (.frame (writeFrame s.addr (s.dataBytes s.count.toNat))) }) ∧
    (∀ v, exec (.wr8 v) s = core.run 1 { s with
        status := 0, inflight := some (.frame (writeFrame s.addr [v])) }) ∧
    (s.count.toNat ≤ Config.dataCap →
      exec .emaRead s = core.run 2 { s with
        status := 0, inflight := some (.frame (readRequest s.addr s.count)) }) ∧
    exec .decodeAny s = core.run 1 { s with status := 0, inflight := some .classify }

/-! ### The whole machine -/

/-- Which commands write which state (R22, R26, R27, R28, R29, R31, R35): no command writes ADDR, COUNT or PKT;
VALUE, DIAG, REPORT and DATA only by the commands named; TRACE only by the bus commands. -/
def Obligations.EachRegisterHasItsWriters : Prop :=
  ∀ (s t : State) (i : Instr), i.isCommand = true → exec i s = .next t →
    t.addr = s.addr ∧ t.count = s.count ∧ t.inputs = s.inputs ∧ t.inflight = s.inflight ∧
    t.hostReads = s.hostReads ∧ t.epoch = s.epoch ∧
    (t.value ≠ s.value → i = .rd8 ∨ i = .rd16) ∧
    (t.diag ≠ s.diag → i = .emaRead ∨ i = .rd8 ∨ i = .rd16) ∧
    (t.report ≠ s.report →
      i = .decodeAny ∨ i = .decodeMouse ∨ i = .decodeKeyboard ∨ i = .decodeAbsolute) ∧
    (t.trace ≠ s.trace → i = .emaWrite ∨ i = .emaRead ∨ i = .rd8 ∨ i = .rd16 ∨ ∃ v, i = .wr8 v) ∧
    (∀ a, t.readByte a ≠ s.readByte a →
      i = .emaRead ∧ 0x1000 ≤ a ∧ a < 0x1000 + s.count.toNat)

/-- R35: TRACE only grows, but for a reset, in every step; and no host read depends on it. -/
def Obligations.TraceOnlyGrows : Prop :=
  (∀ s t : State, step s = .next t →
    (∃ new, t.trace = s.trace ++ new) ∨ (s.inputs.head? = some .reset ∧ t.trace = [])) ∧
  ∀ (s : State) (trace : List Event) (o : Nat) (dr : Bool),
    hostReadWord { s with trace := trace } o dr = hostReadWord s o dr

/-- R216: after any command STATUS[5:0] is 0, one of the two EMA flags or both, or exactly one other flag:
CMD_ERR excludes all others; UNRECOGNIZED needs expected kind 0x00 and DECODE_FAIL another one; QRESULT comes
from a query; and both EMA flags can be set together. -/
def Obligations.FlagsExcludeEachOther : Prop :=
  (∀ (s t : State) (i : Instr), i.isCommand = true → exec i s = .next t →
    (t.flag .cmdErr = true → t.status = 0b010000) ∧
    (t.flag .unrecognized = true → t.status = 0b000100 ∧ i = .decodeAny) ∧
    (t.flag .decodeFail = true →
      t.status = 0b001000 ∧ (i = .decodeMouse ∨ i = .decodeKeyboard ∨ i = .decodeAbsolute)) ∧
    (t.flag .qresult = true →
      t.status = 0b100000 ∧ ∃ a, i = .qvalid a ∨ i = .qcontact a ∨ i = .qbutton a) ∧
    legalStatus t.status = true) ∧
  ∃ s t : State, exec .emaRead s = .next t ∧ t.flag .csumMismatch = true ∧ t.flag .lenMismatch = true

/-- The state between host accesses is kept by every step: the bus released, no phase left over, the buffers in
canonical form, legal flags, consistent diagnostics, and TRACE whole transactions (R34, R55, R53, R216,
R118). -/
def Obligations.EveryStepKeepsSafeStates : Prop :=
  ∀ s t : State, SafeState s → step s = .next t → SafeState t

/-- The state after reset is safe, whatever host program and transport it is given. -/
def Obligations.ResetStateIsSafe : Prop :=
  ∀ (inputs : List Input) (replies : List Reply),
    SafeState { State.reset with inputs := inputs, replies := replies }

/-- So is every state a host program can reach, and no step from one of them is refused but by a reset that
arrives in a command. -/
def Obligations.ReachableStatesAreSafe : Prop :=
  ∀ s : State, Reachable s → SafeState s ∧
    ∀ r, step s = .refused r → r = .resetDuringCommand ∧ s.inputs.head? = some .resetInCommand

/-- R87: the exact expansions, as the host accesses they stand for (R86). -/
def Obligations.PseudoInstructionsExpandExactly : Prop :=
  (∀ a v, programInputs (Pseudo.regWrite8 a v).expand =
    [.write 0x008 a, .write 0x000 (BitVec.ofNat 32 (0x04 + 256 * v.toNat))]) ∧
  (∀ a, programInputs (Pseudo.regRead8 a).expand = [.write 0x008 a, .write 0x000 0x00000003]) ∧
  (∀ a, programInputs (Pseudo.regRead16 a).expand = [.write 0x008 a, .write 0x000 0x00000005]) ∧
  (∀ a n, programInputs (Pseudo.emaRead a n).expand =
    [.write 0x008 a, .write 0x00C (n.setWidth 32), .write 0x000 0x00000002]) ∧
  programInputs Pseudo.reportDecode.expand = [.write 0x000 0x00000010] ∧
  ∀ a (payload : List Byte), programInputs (Pseudo.emaWrite a payload).expand =
    [.write 0x008 a, .write 0x00C (BitVec.ofNat 32 payload.length)] ++
      (List.range ((payload.length + 3) / 4)).map (fun q =>
        .write (0x1000 + 4 * q) (BitVec.ofNat 32
          ((byteAt payload (4 * q)).toNat + 0x100 * (byteAt payload (4 * q + 1)).toNat +
            0x10000 * (byteAt payload (4 * q + 2)).toNat +
            0x1000000 * (byteAt payload (4 * q + 3)).toNat))) ++
      [.write 0x000 0x00000001]
end

