-- ==== Sys2Proof/Laws/Bytes.lean ====
section
/-! SUPPORT. The byte-order helpers and the command word undo each other, and sum8 is the sum mod 256 (spec
00_scope.md R10, R11; 30_encoding.md R80). -/

namespace Sys2Proof

/-- A bit past the width is 0. -/
theorem getLsbD_high {n : Nat} (v : BitVec n) (i : Nat) (h : n ≤ i) : v.getLsbD i = false :=
  BitVec.getLsbD_of_ge v i h

/-- `le16` puts the high byte above the low byte. -/
theorem le16_eq_append (lo hi : Byte) : le16 lo hi = hi ++ lo := by
  apply BitVec.eq_of_getLsbD_eq
  intro i h16
  simp only [le16, BitVec.getLsbD_or, BitVec.getLsbD_setWidth, BitVec.getLsbD_shiftLeft, BitVec.getLsbD_append]
  by_cases h : i < 8
  · simp [h, h16]
  · simp [h, h16, getLsbD_high lo i (by omega), show i - 8 < 16 by omega]

/-- `le32` puts later bytes above earlier ones. -/
theorem le32_eq_append (b0 b1 b2 b3 : Byte) : le32 b0 b1 b2 b3 = b3 ++ (b2 ++ (b1 ++ b0)) := by
  apply BitVec.eq_of_getLsbD_eq
  intro i h32
  simp only [le32, BitVec.getLsbD_or, BitVec.getLsbD_setWidth, BitVec.getLsbD_shiftLeft, BitVec.getLsbD_append]
  by_cases h : i < 8
  · simp [h, h32, show i < 16 by omega, show i < 24 by omega]
  · by_cases h2 : i < 16
    · simp [h, h2, h32, show i < 24 by omega, getLsbD_high b0 i (by omega), show i - 8 < 32 by omega]
    · by_cases h3 : i < 24
      · simp [h, h2, h3, h32, getLsbD_high b0 i (by omega), getLsbD_high b1 (i-8) (by omega), show i - 16 < 32 by omega]
      · simp [h, h2, h3, h32, getLsbD_high b0 i (by omega), getLsbD_high b1 (i-8) (by omega), getLsbD_high b2 (i-16) (by omega), show i - 24 < 32 by omega]

theorem append_toNat {m n : Nat} (hi : BitVec m) (lo : BitVec n) :
    (hi ++ lo).toNat = lo.toNat + 2 ^ n * hi.toNat := by
  rw [BitVec.toNat_append, ← Nat.shiftLeft_add_eq_or_of_lt lo.isLt, Nat.shiftLeft_eq, Nat.mul_comm,
    Nat.add_comm]

theorem le16_toNat (lo hi : Byte) : (le16 lo hi).toNat = lo.toNat + 256 * hi.toNat := by
  rw [le16_eq_append, append_toNat]
  omega

theorem le32_toNat (b0 b1 b2 b3 : Byte) :
    (le32 b0 b1 b2 b3).toNat = b0.toNat + 256 * b1.toNat + 65536 * b2.toNat + 16777216 * b3.toNat := by
  rw [le32_eq_append, append_toNat, append_toNat, append_toNat]
  omega

/-- LE2 read back (R10). -/
theorem le16_le2Bytes (v : Half) : le16 (v.extractLsb' 0 8) (v.extractLsb' 8 8) = v := by
  apply BitVec.eq_of_toNat_eq
  simp only [le16_toNat, BitVec.extractLsb'_toNat, Nat.shiftRight_eq_div_pow]
  omega

theorem le16_low (lo hi : Byte) : (le16 lo hi).extractLsb' 0 8 = lo := by
  apply BitVec.eq_of_toNat_eq
  simp only [le16_toNat, BitVec.extractLsb'_toNat, Nat.shiftRight_eq_div_pow]
  omega

theorem le16_high (lo hi : Byte) : (le16 lo hi).extractLsb' 8 8 = hi := by
  apply BitVec.eq_of_toNat_eq
  simp only [le16_toNat, BitVec.extractLsb'_toNat, Nat.shiftRight_eq_div_pow]
  omega

/-- LE4 read back (R10). -/
theorem le32_le4Bytes (v : Word) :
    le32 (v.extractLsb' 0 8) (v.extractLsb' 8 8) (v.extractLsb' 16 8) (v.extractLsb' 24 8) = v := by
  apply BitVec.eq_of_toNat_eq
  simp only [le32_toNat, BitVec.extractLsb'_toNat, Nat.shiftRight_eq_div_pow]
  omega

/-- The bytes of a word built little-endian (R53). -/
theorem le4Bytes_le32 (a b c d : Byte) : le4Bytes (le32 a b c d) = [a, b, c, d] := by
  simp only [le4Bytes, List.cons.injEq, and_true]
  refine ⟨?_, ?_, ?_, ?_⟩
  all_goals
    apply BitVec.eq_of_toNat_eq
    simp only [le32_toNat, BitVec.extractLsb'_toNat, Nat.shiftRight_eq_div_pow]
    omega

theorem commandWord_toNat (op arg : Byte) : (commandWord op arg).toNat = op.toNat + 256 * arg.toNat := by
  have : commandWord op arg = (le16 op arg).setWidth 32 := by
    apply BitVec.eq_of_getLsbD_eq
    intro i h32
    simp [commandWord, le16]
    by_cases h : i < 16
    · simp [h, h32, show i - 8 < 32 by omega, show i - 8 < 16 by omega]
    · simp [h, getLsbD_high op i (by omega), getLsbD_high arg (i-8) (by omega)]
  rw [this, BitVec.toNat_setWidth, le16_toNat]
  omega

theorem commandWord_op (op arg : Byte) : (commandWord op arg).extractLsb' 0 8 = op := by
  apply BitVec.eq_of_toNat_eq
  simp only [commandWord_toNat, BitVec.extractLsb'_toNat, Nat.shiftRight_eq_div_pow]
  omega

theorem commandWord_arg (op arg : Byte) : (commandWord op arg).extractLsb' 8 8 = arg := by
  apply BitVec.eq_of_toNat_eq
  simp only [commandWord_toNat, BitVec.extractLsb'_toNat, Nat.shiftRight_eq_div_pow]
  omega

theorem commandWord_reserved (op arg : Byte) : (commandWord op arg).extractLsb' 16 16 = 0 := by
  apply BitVec.eq_of_toNat_eq
  simp only [commandWord_toNat, BitVec.extractLsb'_toNat, Nat.shiftRight_eq_div_pow]
  simp; omega

/-- A word whose RSV is 0 is its OP and ARG8 (R80). -/
theorem commandWord_of_fields (w : Word) (h : w.extractLsb' 16 16 = 0) :
    commandWord (w.extractLsb' 0 8) (w.extractLsb' 8 8) = w := by
  apply BitVec.eq_of_toNat_eq
  have h := congrArg BitVec.toNat h
  simp only [commandWord_toNat, BitVec.extractLsb'_toNat, Nat.shiftRight_eq_div_pow] at h ⊢
  simp at h
  omega

/-- sum8 is the sum of the bytes mod 256 (R11). -/
theorem sum8_toNat (xs : List Byte) : (sum8 xs).toNat = (xs.map BitVec.toNat).sum % 256 := by
  have h : ∀ a : Byte, (xs.foldl (fun acc b => acc + b) a).toNat =
      (a.toNat + (xs.map BitVec.toNat).sum) % 256 := by
    induction xs with
    | nil => intro a; simp; omega
    | cons x xs ih => intro a; simp [ih]; omega
  simpa [sum8] using h 0

/-- sum8 as a byte of the sum (R11). -/
theorem sum8_eq_ofNat (xs : List Byte) : sum8 xs = BitVec.ofNat 8 (xs.map BitVec.toNat).sum := by
  apply BitVec.eq_of_toNat_eq
  simp [sum8_toNat]

/-- Byte `k / 8` of a word or a half, as a quotient. -/
theorem extractByte_eq_ofNat {n : Nat} (v : BitVec n) (k : Nat) :
    v.extractLsb' k 8 = BitVec.ofNat 8 (v.toNat / 2 ^ k) := by
  apply BitVec.eq_of_toNat_eq
  simp [BitVec.extractLsb'_toNat, Nat.shiftRight_eq_div_pow]

/-- The eight bytes of the preamble, written out (R70). -/
theorem preamble_eq (d : Byte) (a : Word) (c : Half) :
    preamble d a c =
      [d, 0x09, BitVec.ofNat 8 a.toNat, BitVec.ofNat 8 (a.toNat / 256),
        BitVec.ofNat 8 (a.toNat / 65536), BitVec.ofNat 8 (a.toNat / 16777216),
        BitVec.ofNat 8 c.toNat, BitVec.ofNat 8 (c.toNat / 256)] := by
  simp [preamble, le4Bytes, le2Bytes, extractByte_eq_ofNat, emaSelector]

theorem sum8_append (xs ys : List Byte) : sum8 (xs ++ ys) = sum8 xs + sum8 ys := by
  apply BitVec.eq_of_toNat_eq
  simp [sum8_toNat, BitVec.toNat_add]

@[simp] theorem le2Bytes_length (v : Half) : (le2Bytes v).length = 2 := rfl

@[simp] theorem le4Bytes_length (v : Word) : (le4Bytes v).length = 4 := rfl

/-- "The EMA preamble is exactly 8 bytes" (R70). -/
@[simp] theorem preamble_length (d : Byte) (a : Word) (c : Half) : (preamble d a c).length = 8 := rfl

/-- A read request is the 8-byte preamble alone (R72). -/
@[simp] theorem readRequest_length (a : Word) (c : Half) : (readRequest a c).length = 8 := rfl

/-- A write frame is 9 + n bytes (R71). -/
@[simp] theorem writeFrame_length (a : Word) (p : List Byte) :
    (writeFrame a p).length = 9 + p.length := by
  simp [writeFrame, withChecksum]
  omega

end Sys2Proof
end

