-- ==== Sys2Proof/Laws/Codec.lean ====
section
/-! SUPPORT. The response validator on a complete response and on a short one (spec 40_ema_codec.md R110 to
R117). -/

namespace Sys2Proof.Machine

/-- On a complete response: k = c + 2, and the checksum byte is byte c + 2 (R111, R113 to R116). -/
theorem emaReadCore_complete (c : Nat) (resp : List Byte) (h : resp.length = c + 3) :
    (emaReadCore c resp).csumMismatch = (byteAt resp (c + 2) != sum8 (resp.take (c + 2))) ∧
      (emaReadCore c resp).lenMismatch = ((declaredLength resp).toNat != c + 2) := by
  have ht : resp.take (c + 3) = resp := List.take_of_length_le (by omega)
  simp [emaReadCore, ht, h]

/-- On a response that is not complete the checksum is absent, which is a mismatch (R114, R115). -/
theorem emaReadCore_short (c : Nat) (resp : List Byte) (h : resp.length < c + 3) :
    (emaReadCore c resp).csumMismatch = true := by
  have ht : resp.take (c + 3) = resp := List.take_of_length_le (by omega)
  simp [emaReadCore, ht]
  omega

/-- The received payload has at most `c` bytes (R117). -/
theorem emaReadCore_payload_length (c : Nat) (resp : List Byte) :
    (emaReadCore c resp).payload.length ≤ c := by
  simp [emaReadCore]

/-- The validator never looks past byte c + 2 (R110). -/
theorem emaReadCore_take (c : Nat) (resp : List Byte) :
    emaReadCore c (resp.take (c + 3)) = emaReadCore c resp := by
  simp [emaReadCore, List.take_take]

theorem byteAt_take (r : List Byte) (n k : Nat) (h : k < n) : byteAt (r.take n) k = byteAt r k := by
  simp [byteAt, List.getD_eq_getElem?_getD, h]

/-- The declared length as a number (R112). -/
theorem declaredLength_toNat (r : List Byte) : (declaredLength r).toNat =
    if 2 ≤ r.length then (byteAt r 0).toNat + 256 * (byteAt r 1).toNat else 0 := by
  match r with
  | [] => rfl
  | [_] => rfl
  | a :: b :: t => simp [declaredLength, le16_toNat, byteAt]

/-- Payload byte `j` is response byte 2 + j (R117). -/
theorem emaReadCore_payload_byte (c : Nat) (r : List Byte) (j : Nat) (hj : j < c) :
    byteAt (emaReadCore c r).payload j = byteAt r (2 + j) := by
  simp [emaReadCore, byteAt, List.getD_eq_getElem?_getD, List.getElem?_take, hj]
  rw [if_pos (by omega)]

/-- How many payload bytes arrived (R117). -/
theorem emaReadCore_payload_count (c : Nat) (r : List Byte) (h : r.length ≤ c + 3) :
    (emaReadCore c r).payload.length = min c (r.length - 2) := by
  simp [emaReadCore, List.take_of_length_le h]

end Sys2Proof.Machine
end

