-- ==== Sys2Proof/Laws/Config.lean ====
section
/-! SUPPORT. The bounds spec 00_scope.md R8 gives for the open parameters, whatever their values. -/

namespace Sys2Proof

theorem Config.dataCap_bounds : 255 ≤ Config.dataCap ∧ Config.dataCap ≤ 65532 := by
  have h := Config.dataCapAbove255.isLt
  unfold Config.dataCap
  omega

/-- `withinDataCap` is the bound of R8 itself. -/
theorem Config.withinDataCap_iff (n : Nat) :
    Config.withinDataCap n = true ↔ n ≤ Config.dataCap := by
  have h := Config.dataCap_bounds
  simp [Config.withinDataCap]
  omega

theorem Config.withinDataCap_small {n : Nat} (h : n ≤ 255) : Config.withinDataCap n = true := by
  simp [Config.withinDataCap, h]

theorem Config.withinDataCap_le {n : Nat} (h : Config.withinDataCap n = true) : n ≤ 65532 :=
  Nat.le_trans ((Config.withinDataCap_iff n).1 h) Config.dataCap_bounds.2

/-- The palm-reject bit is not the confidence bit (R8). -/
theorem Config.palmReject_ne_conf : Config.palmRejectMask ≠ Config.confMask := by
  unfold Config.palmRejectMask
  generalize Config.palmRejectSlot = p
  revert p
  decide

/-- The confidence bit alone does not meet the palm-reject mask (95_test_vectors.md S2). -/
theorem Config.conf_and_palmReject : Config.confMask &&& Config.palmRejectMask = 0 := by
  unfold Config.palmRejectMask
  generalize Config.palmRejectSlot = p
  revert p
  decide

/-- The palm-reject mask is one bit (R8). -/
theorem Config.palmReject_one_bit :
    ∃ b, b < 8 ∧ b ≠ 1 ∧ Config.palmRejectMask = 1#8 <<< b := by
  unfold Config.palmRejectMask
  generalize Config.palmRejectSlot = p
  revert p
  decide

/-- The single-sample mask is one bit, apart from the other two (R8). -/
theorem Config.singleSample_apart :
    (∃ b, b < 8 ∧ Config.singleSampleMask = 1#8 <<< b) ∧
      Config.singleSampleMask ≠ Config.confMask ∧
      Config.singleSampleMask ≠ Config.palmRejectMask := by
  unfold Config.singleSampleMask Config.palmRejectMask
  generalize Config.palmRejectSlot = p
  generalize Config.singleSampleSlot = q
  revert p q
  decide

end Sys2Proof
end

