-- ==== Sys2Proof/Laws/Memory.lean ====
section
/-! SUPPORT. The buffers: read after write, writes elsewhere, the canonical form, and the frame of a write
(spec 20_memory.md R53). -/

namespace Sys2Proof.Machine

theorem Memory.get?_set_same (m : List Host.Cell) (a : Nat) (b : Byte) :
    Memory.get? (Memory.set m a b) a = some b := by
  induction m with
  | nil => simp [Memory.set, Memory.get?]
  | cons c rest ih =>
    obtain ⟨k, v⟩ := c
    simp only [Memory.set]
    split
    · simp [Memory.get?]
    · split
      · simp [Memory.get?]
      · simp only [Memory.get?]
        rw [if_neg (by omega), ih]

theorem Memory.get?_set_other (m : List Host.Cell) (a c : Nat) (b : Byte) (h : c ≠ a) :
    Memory.get? (Memory.set m a b) c = Memory.get? m c := by
  induction m with
  | nil => simp [Memory.set, Memory.get?, Ne.symm h]
  | cons x rest ih =>
    obtain ⟨k, v⟩ := x
    simp only [Memory.set]
    split
    · simp only [Memory.get?]
      rw [if_neg (Ne.symm h)]
    · split
      · subst_vars
        simp [Memory.get?, Ne.symm h]
      · simp only [Memory.get?, ih]

theorem Memory.wfAbove_set (m : List Host.Cell) (low : Option Nat) (a : Nat) (b : Byte)
    (ha : inBuffer a = true) (hlow : ∀ l, low = some l → l < a) (h : Memory.wfAbove low m = true) :
    Memory.wfAbove low (Memory.set m a b) = true := by
  induction m generalizing low with
  | nil =>
    cases low with
    | none => simp [Memory.set, Memory.wfAbove, ha]
    | some l => simp [Memory.set, Memory.wfAbove, ha, hlow l rfl]
  | cons x rest ih =>
    obtain ⟨k, v⟩ := x
    simp only [Memory.wfAbove, Bool.and_eq_true] at h
    obtain ⟨⟨h1, h2⟩, h3⟩ := h
    simp only [Memory.set]
    split
    · rename_i hak
      cases low with
      | none => simp [Memory.wfAbove, ha, h2, h3, hak]
      | some l => simp [Memory.wfAbove, ha, h2, h3, hak, hlow l rfl]
    · split
      · subst_vars
        simp only [Memory.wfAbove, Bool.and_eq_true]
        exact ⟨⟨h1, h2⟩, h3⟩
      · simp only [Memory.wfAbove, Bool.and_eq_true]
        exact ⟨⟨h1, h2⟩, ih (some k) (by intro l hl; cases hl; omega) h3⟩

/-- Writing a buffer byte keeps the canonical form. -/
theorem Memory.wf_set (m : List Host.Cell) (a : Nat) (b : Byte) (ha : inBuffer a = true)
    (h : Memory.wf m = true) : Memory.wf (Memory.set m a b) = true :=
  Memory.wfAbove_set m none a b ha (by intro l hl; cases hl) h

/-- A host write of one byte keeps the canonical form. -/
theorem State.writeByte_wf (s : State) (a : Nat) (b : Byte) (h : Memory.wf s.mem = true) :
    Memory.wf (s.writeByte a b).mem = true := by
  unfold State.writeByte
  split
  · exact Memory.wf_set s.mem a b (by assumption) h
  · exact h

/-- Writing consecutive bytes keeps the canonical form. -/
theorem State.writeBytes_wf (bs : List Byte) (s : State) (a : Nat) (h : Memory.wf s.mem = true) :
    Memory.wf (s.writeBytes a bs).mem = true := by
  induction bs generalizing s a with
  | nil => exact h
  | cons b rest ih => exact ih _ _ (State.writeByte_wf s a b h)

@[simp] theorem State.writeByte_addr (s : State) (a : Nat) (b : Byte) :
    (s.writeByte a b).addr = s.addr := by
  unfold State.writeByte
  split <;> rfl

@[simp] theorem State.writeBytes_addr (bs : List Byte) (s : State) (a : Nat) :
    (s.writeBytes a bs).addr = s.addr := by
  induction bs generalizing s a with
  | nil => rfl
  | cons b rest ih => simp [State.writeBytes, ih]

@[simp] theorem State.writeByte_count (s : State) (a : Nat) (b : Byte) :
    (s.writeByte a b).count = s.count := by
  unfold State.writeByte
  split <;> rfl

@[simp] theorem State.writeBytes_count (bs : List Byte) (s : State) (a : Nat) :
    (s.writeBytes a bs).count = s.count := by
  induction bs generalizing s a with
  | nil => rfl
  | cons b rest ih => simp [State.writeBytes, ih]

@[simp] theorem State.writeByte_status (s : State) (a : Nat) (b : Byte) :
    (s.writeByte a b).status = s.status := by
  unfold State.writeByte
  split <;> rfl

@[simp] theorem State.writeBytes_status (bs : List Byte) (s : State) (a : Nat) :
    (s.writeBytes a bs).status = s.status := by
  induction bs generalizing s a with
  | nil => rfl
  | cons b rest ih => simp [State.writeBytes, ih]

@[simp] theorem State.writeByte_value (s : State) (a : Nat) (b : Byte) :
    (s.writeByte a b).value = s.value := by
  unfold State.writeByte
  split <;> rfl

@[simp] theorem State.writeBytes_value (bs : List Byte) (s : State) (a : Nat) :
    (s.writeBytes a bs).value = s.value := by
  induction bs generalizing s a with
  | nil => rfl
  | cons b rest ih => simp [State.writeBytes, ih]

@[simp] theorem State.writeByte_diag (s : State) (a : Nat) (b : Byte) :
    (s.writeByte a b).diag = s.diag := by
  unfold State.writeByte
  split <;> rfl

@[simp] theorem State.writeBytes_diag (bs : List Byte) (s : State) (a : Nat) :
    (s.writeBytes a bs).diag = s.diag := by
  induction bs generalizing s a with
  | nil => rfl
  | cons b rest ih => simp [State.writeBytes, ih]

@[simp] theorem State.writeByte_report (s : State) (a : Nat) (b : Byte) :
    (s.writeByte a b).report = s.report := by
  unfold State.writeByte
  split <;> rfl

@[simp] theorem State.writeBytes_report (bs : List Byte) (s : State) (a : Nat) :
    (s.writeBytes a bs).report = s.report := by
  induction bs generalizing s a with
  | nil => rfl
  | cons b rest ih => simp [State.writeBytes, ih]

@[simp] theorem State.writeByte_trace (s : State) (a : Nat) (b : Byte) :
    (s.writeByte a b).trace = s.trace := by
  unfold State.writeByte
  split <;> rfl

@[simp] theorem State.writeBytes_trace (bs : List Byte) (s : State) (a : Nat) :
    (s.writeBytes a bs).trace = s.trace := by
  induction bs generalizing s a with
  | nil => rfl
  | cons b rest ih => simp [State.writeBytes, ih]

@[simp] theorem State.writeByte_busHeld (s : State) (a : Nat) (b : Byte) :
    (s.writeByte a b).busHeld = s.busHeld := by
  unfold State.writeByte
  split <;> rfl

@[simp] theorem State.writeBytes_busHeld (bs : List Byte) (s : State) (a : Nat) :
    (s.writeBytes a bs).busHeld = s.busHeld := by
  induction bs generalizing s a with
  | nil => rfl
  | cons b rest ih => simp [State.writeBytes, ih]

@[simp] theorem State.writeByte_inflight (s : State) (a : Nat) (b : Byte) :
    (s.writeByte a b).inflight = s.inflight := by
  unfold State.writeByte
  split <;> rfl

@[simp] theorem State.writeBytes_inflight (bs : List Byte) (s : State) (a : Nat) :
    (s.writeBytes a bs).inflight = s.inflight := by
  induction bs generalizing s a with
  | nil => rfl
  | cons b rest ih => simp [State.writeBytes, ih]

@[simp] theorem State.writeByte_inputs (s : State) (a : Nat) (b : Byte) :
    (s.writeByte a b).inputs = s.inputs := by
  unfold State.writeByte
  split <;> rfl

@[simp] theorem State.writeBytes_inputs (bs : List Byte) (s : State) (a : Nat) :
    (s.writeBytes a bs).inputs = s.inputs := by
  induction bs generalizing s a with
  | nil => rfl
  | cons b rest ih => simp [State.writeBytes, ih]

@[simp] theorem State.writeByte_replies (s : State) (a : Nat) (b : Byte) :
    (s.writeByte a b).replies = s.replies := by
  unfold State.writeByte
  split <;> rfl

@[simp] theorem State.writeBytes_replies (bs : List Byte) (s : State) (a : Nat) :
    (s.writeBytes a bs).replies = s.replies := by
  induction bs generalizing s a with
  | nil => rfl
  | cons b rest ih => simp [State.writeBytes, ih]

@[simp] theorem State.writeByte_draws (s : State) (a : Nat) (b : Byte) :
    (s.writeByte a b).draws = s.draws := by
  unfold State.writeByte
  split <;> rfl

@[simp] theorem State.writeBytes_draws (bs : List Byte) (s : State) (a : Nat) :
    (s.writeBytes a bs).draws = s.draws := by
  induction bs generalizing s a with
  | nil => rfl
  | cons b rest ih => simp [State.writeBytes, ih]

@[simp] theorem State.writeByte_epoch (s : State) (a : Nat) (b : Byte) :
    (s.writeByte a b).epoch = s.epoch := by
  unfold State.writeByte
  split <;> rfl

@[simp] theorem State.writeBytes_epoch (bs : List Byte) (s : State) (a : Nat) :
    (s.writeBytes a bs).epoch = s.epoch := by
  induction bs generalizing s a with
  | nil => rfl
  | cons b rest ih => simp [State.writeBytes, ih]

@[simp] theorem State.writeByte_hostReads (s : State) (a : Nat) (b : Byte) :
    (s.writeByte a b).hostReads = s.hostReads := by
  unfold State.writeByte
  split <;> rfl

@[simp] theorem State.writeBytes_hostReads (bs : List Byte) (s : State) (a : Nat) :
    (s.writeBytes a bs).hostReads = s.hostReads := by
  induction bs generalizing s a with
  | nil => rfl
  | cons b rest ih => simp [State.writeBytes, ih]

theorem State.readByte_writeByte_same (s : State) (a : Nat) (b : Byte) (h : inBuffer a = true) :
    (s.writeByte a b).readByte a = b := by
  simp [State.readByte, State.writeByte, h, Memory.get?_set_same]

theorem State.readByte_writeByte_other (s : State) (a c : Nat) (b : Byte) (h : c ≠ a) :
    (s.writeByte a b).readByte c = s.readByte c := by
  unfold State.readByte State.writeByte
  by_cases ha : inBuffer a = true
  · simp [ha, Memory.get?_set_other _ _ _ _ h]
  · simp [ha]

/-- An offset outside the bytes written reads as before. -/
theorem State.readByte_writeBytes_outside (bs : List Byte) (s : State) (a c : Nat)
    (h : c < a ∨ a + bs.length ≤ c) : (s.writeBytes a bs).readByte c = s.readByte c := by
  induction bs generalizing s a with
  | nil => rfl
  | cons b rest ih =>
    simp only [List.length_cons] at h
    simp only [State.writeBytes]
    rw [ih _ _ (by omega), State.readByte_writeByte_other _ _ _ _ (by omega)]

/-- An offset inside the bytes written, where a buffer byte stands, reads as the byte written. -/
theorem State.readByte_writeBytes_inside (bs : List Byte) (s : State) (a j : Nat) (hj : j < bs.length)
    (hb : inBuffer (a + j) = true) : (s.writeBytes a bs).readByte (a + j) = bs[j] := by
  induction bs generalizing s a j with
  | nil => simp at hj
  | cons b rest ih =>
    simp only [State.writeBytes]
    cases j with
    | zero =>
      rw [State.readByte_writeBytes_outside _ _ _ _ (by omega)]
      exact State.readByte_writeByte_same s a b hb
    | succ j =>
      have h := ih (s.writeByte a b) (a + 1) j (by simpa using hj) (by rw [← hb]; congr 1; omega)
      rw [show a + (j + 1) = a + 1 + j by omega, h]
      simp

/-- Where no buffer byte stands, every read is 0 (R53). -/
theorem State.readByte_outside (s : State) (a : Nat) (h : inBuffer a = false) : s.readByte a = 0 := by
  simp [State.readByte, h]

/-- Two states whose lists and lives agree read the same. -/
theorem State.readByte_congr (s t : State) (hm : t.mem = s.mem) (he : t.epoch = s.epoch) (a : Nat) :
    t.readByte a = s.readByte a := by
  simp [State.readByte, hm, he]

/-- Every byte of PKT is a buffer byte (R29, R53). -/
theorem inBuffer_pkt {k : Nat} (h : k < packetSize) : inBuffer (pktBase + k) = true := by
  simp [inBuffer, h]

/-- The bytes of DATA are its first DATA_CAP (R28, R53). -/
theorem inBuffer_data (k : Nat) : inBuffer (dataBase + k) = true ↔ k < Config.dataCap := by
  have h1 : ¬ (dataBase + k < pktBase + packetSize) := by simp [dataBase, pktBase, packetSize]; omega
  simp [inBuffer, h1, Config.withinDataCap_iff]

/-- A byte write moves the buffers alone. -/
theorem State.writeByte_state (s : State) (a : Nat) (b : Byte) :
    s.writeByte a b = { s with mem := (s.writeByte a b).mem } := by
  unfold State.writeByte
  split <;> rfl

/-- A write of consecutive bytes moves the buffers alone. -/
theorem State.writeBytes_state (bs : List Byte) (s : State) (a : Nat) :
    s.writeBytes a bs = { s with mem := (s.writeBytes a bs).mem } := by
  induction bs generalizing s a with
  | nil => rfl
  | cons b rest ih =>
    have h := ih (s.writeByte a b) (a + 1)
    simp only [State.writeBytes]
    rw [h]
    simp

/-- Where the buffer bytes stand (R53). -/
theorem inBuffer_iff (a : Nat) : inBuffer a = true ↔
    (pktBase ≤ a ∧ a < pktBase + packetSize) ∨ (dataBase ≤ a ∧ a < dataBase + Config.dataCap) := by
  simp only [inBuffer, Bool.or_eq_true, Bool.and_eq_true, Config.withinDataCap_iff, decide_eq_true_eq]
  omega

/-- Where they do not. -/
theorem inBuffer_false_iff (a : Nat) : inBuffer a = false ↔
    a < 0x800 ∨ (0x835 ≤ a ∧ a < 0x1000) ∨ 0x1000 + Config.dataCap ≤ a := by
  rw [← Bool.not_eq_true, inBuffer_iff]
  simp only [pktBase, dataBase, packetSize]
  omega

end Sys2Proof.Machine
end

