-- ==== Sys2Proof/Laws/State.lean ====
section
/-! SUPPORT. One lemma per field per update, so that no later proof unfolds a record update. Fields an update
writes first, then the fields it leaves. -/

namespace Sys2Proof.Machine

@[simp] theorem State.clearFlags_status (s : State) :
    s.clearFlags.status = 0 := rfl

@[simp] theorem State.clearFlags_addr (s : State) : s.clearFlags.addr = s.addr := rfl

@[simp] theorem State.clearFlags_count (s : State) : s.clearFlags.count = s.count := rfl

@[simp] theorem State.clearFlags_value (s : State) : s.clearFlags.value = s.value := rfl

@[simp] theorem State.clearFlags_diag (s : State) : s.clearFlags.diag = s.diag := rfl

@[simp] theorem State.clearFlags_mem (s : State) : s.clearFlags.mem = s.mem := rfl

@[simp] theorem State.clearFlags_report (s : State) : s.clearFlags.report = s.report := rfl

@[simp] theorem State.clearFlags_trace (s : State) : s.clearFlags.trace = s.trace := rfl

@[simp] theorem State.clearFlags_busHeld (s : State) : s.clearFlags.busHeld = s.busHeld := rfl

@[simp] theorem State.clearFlags_inflight (s : State) : s.clearFlags.inflight = s.inflight := rfl

@[simp] theorem State.clearFlags_inputs (s : State) : s.clearFlags.inputs = s.inputs := rfl

@[simp] theorem State.clearFlags_replies (s : State) : s.clearFlags.replies = s.replies := rfl

@[simp] theorem State.clearFlags_draws (s : State) : s.clearFlags.draws = s.draws := rfl

@[simp] theorem State.clearFlags_epoch (s : State) : s.clearFlags.epoch = s.epoch := rfl

@[simp] theorem State.clearFlags_hostReads (s : State) : s.clearFlags.hostReads = s.hostReads := rfl

@[simp] theorem State.raise_status (s : State) (f : Flag) :
    (s.raise f).status = s.status ||| f.mask := rfl

@[simp] theorem State.raise_addr (s : State) (f : Flag) : (s.raise f).addr = s.addr := rfl

@[simp] theorem State.raise_count (s : State) (f : Flag) : (s.raise f).count = s.count := rfl

@[simp] theorem State.raise_value (s : State) (f : Flag) : (s.raise f).value = s.value := rfl

@[simp] theorem State.raise_diag (s : State) (f : Flag) : (s.raise f).diag = s.diag := rfl

@[simp] theorem State.raise_mem (s : State) (f : Flag) : (s.raise f).mem = s.mem := rfl

@[simp] theorem State.raise_report (s : State) (f : Flag) : (s.raise f).report = s.report := rfl

@[simp] theorem State.raise_trace (s : State) (f : Flag) : (s.raise f).trace = s.trace := rfl

@[simp] theorem State.raise_busHeld (s : State) (f : Flag) : (s.raise f).busHeld = s.busHeld := rfl

@[simp] theorem State.raise_inflight (s : State) (f : Flag) : (s.raise f).inflight = s.inflight := rfl

@[simp] theorem State.raise_inputs (s : State) (f : Flag) : (s.raise f).inputs = s.inputs := rfl

@[simp] theorem State.raise_replies (s : State) (f : Flag) : (s.raise f).replies = s.replies := rfl

@[simp] theorem State.raise_draws (s : State) (f : Flag) : (s.raise f).draws = s.draws := rfl

@[simp] theorem State.raise_epoch (s : State) (f : Flag) : (s.raise f).epoch = s.epoch := rfl

@[simp] theorem State.raise_hostReads (s : State) (f : Flag) : (s.raise f).hostReads = s.hostReads := rfl

@[simp] theorem State.answer_status (s : State) (b : Bool) :
    (s.answer b).status = (s.status &&& ~~~Flag.qresult.mask) ||| Flag.qresult.maskIf b := rfl

@[simp] theorem State.answer_addr (s : State) (b : Bool) : (s.answer b).addr = s.addr := rfl

@[simp] theorem State.answer_count (s : State) (b : Bool) : (s.answer b).count = s.count := rfl

@[simp] theorem State.answer_value (s : State) (b : Bool) : (s.answer b).value = s.value := rfl

@[simp] theorem State.answer_diag (s : State) (b : Bool) : (s.answer b).diag = s.diag := rfl

@[simp] theorem State.answer_mem (s : State) (b : Bool) : (s.answer b).mem = s.mem := rfl

@[simp] theorem State.answer_report (s : State) (b : Bool) : (s.answer b).report = s.report := rfl

@[simp] theorem State.answer_trace (s : State) (b : Bool) : (s.answer b).trace = s.trace := rfl

@[simp] theorem State.answer_busHeld (s : State) (b : Bool) : (s.answer b).busHeld = s.busHeld := rfl

@[simp] theorem State.answer_inflight (s : State) (b : Bool) : (s.answer b).inflight = s.inflight := rfl

@[simp] theorem State.answer_inputs (s : State) (b : Bool) : (s.answer b).inputs = s.inputs := rfl

@[simp] theorem State.answer_replies (s : State) (b : Bool) : (s.answer b).replies = s.replies := rfl

@[simp] theorem State.answer_draws (s : State) (b : Bool) : (s.answer b).draws = s.draws := rfl

@[simp] theorem State.answer_epoch (s : State) (b : Bool) : (s.answer b).epoch = s.epoch := rfl

@[simp] theorem State.answer_hostReads (s : State) (b : Bool) : (s.answer b).hostReads = s.hostReads := rfl

@[simp] theorem State.setEmaFlags_status (s : State) (c l : Bool) :
    (s.setEmaFlags c l).status = (s.status &&& ~~~(Flag.csumMismatch.mask ||| Flag.lenMismatch.mask)) |||
      (Flag.csumMismatch.maskIf c ||| Flag.lenMismatch.maskIf l) := rfl

@[simp] theorem State.setEmaFlags_addr (s : State) (c l : Bool) : (s.setEmaFlags c l).addr = s.addr := rfl

@[simp] theorem State.setEmaFlags_count (s : State) (c l : Bool) : (s.setEmaFlags c l).count = s.count := rfl

@[simp] theorem State.setEmaFlags_value (s : State) (c l : Bool) : (s.setEmaFlags c l).value = s.value := rfl

@[simp] theorem State.setEmaFlags_diag (s : State) (c l : Bool) : (s.setEmaFlags c l).diag = s.diag := rfl

@[simp] theorem State.setEmaFlags_mem (s : State) (c l : Bool) : (s.setEmaFlags c l).mem = s.mem := rfl

@[simp] theorem State.setEmaFlags_report (s : State) (c l : Bool) : (s.setEmaFlags c l).report = s.report := rfl

@[simp] theorem State.setEmaFlags_trace (s : State) (c l : Bool) : (s.setEmaFlags c l).trace = s.trace := rfl

@[simp] theorem State.setEmaFlags_busHeld (s : State) (c l : Bool) : (s.setEmaFlags c l).busHeld = s.busHeld := rfl

@[simp] theorem State.setEmaFlags_inflight (s : State) (c l : Bool) : (s.setEmaFlags c l).inflight = s.inflight := rfl

@[simp] theorem State.setEmaFlags_inputs (s : State) (c l : Bool) : (s.setEmaFlags c l).inputs = s.inputs := rfl

@[simp] theorem State.setEmaFlags_replies (s : State) (c l : Bool) : (s.setEmaFlags c l).replies = s.replies := rfl

@[simp] theorem State.setEmaFlags_draws (s : State) (c l : Bool) : (s.setEmaFlags c l).draws = s.draws := rfl

@[simp] theorem State.setEmaFlags_epoch (s : State) (c l : Bool) : (s.setEmaFlags c l).epoch = s.epoch := rfl

@[simp] theorem State.setEmaFlags_hostReads (s : State) (c l : Bool) : (s.setEmaFlags c l).hostReads = s.hostReads := rfl

@[simp] theorem State.recordResponse_status (s : State) (n : Half) (r : List Byte) :
    (s.recordResponse n r).status = (s.setEmaFlags (emaReadCore n.toNat r).csumMismatch (emaReadCore n.toNat r).lenMismatch).status := rfl

@[simp] theorem State.recordResponse_diag (s : State) (n : Half) (r : List Byte) :
    (s.recordResponse n r).diag = (emaReadCore n.toNat r).diag := rfl

@[simp] theorem State.recordResponse_trace (s : State) (n : Half) (r : List Byte) :
    (s.recordResponse n r).trace = s.trace ++ [.q (n.toNat + 3) true r] := rfl

@[simp] theorem State.recordResponse_busHeld (s : State) (n : Half) (r : List Byte) :
    (s.recordResponse n r).busHeld = false := rfl

@[simp] theorem State.recordResponse_addr (s : State) (n : Half) (r : List Byte) : (s.recordResponse n r).addr = s.addr := rfl

@[simp] theorem State.recordResponse_count (s : State) (n : Half) (r : List Byte) : (s.recordResponse n r).count = s.count := rfl

@[simp] theorem State.recordResponse_value (s : State) (n : Half) (r : List Byte) : (s.recordResponse n r).value = s.value := rfl

@[simp] theorem State.recordResponse_mem (s : State) (n : Half) (r : List Byte) : (s.recordResponse n r).mem = s.mem := rfl

@[simp] theorem State.recordResponse_report (s : State) (n : Half) (r : List Byte) : (s.recordResponse n r).report = s.report := rfl

@[simp] theorem State.recordResponse_inflight (s : State) (n : Half) (r : List Byte) : (s.recordResponse n r).inflight = s.inflight := rfl

@[simp] theorem State.recordResponse_inputs (s : State) (n : Half) (r : List Byte) : (s.recordResponse n r).inputs = s.inputs := rfl

@[simp] theorem State.recordResponse_replies (s : State) (n : Half) (r : List Byte) : (s.recordResponse n r).replies = s.replies := rfl

@[simp] theorem State.recordResponse_draws (s : State) (n : Half) (r : List Byte) : (s.recordResponse n r).draws = s.draws := rfl

@[simp] theorem State.recordResponse_epoch (s : State) (n : Half) (r : List Byte) : (s.recordResponse n r).epoch = s.epoch := rfl

@[simp] theorem State.recordResponse_hostReads (s : State) (n : Half) (r : List Byte) : (s.recordResponse n r).hostReads = s.hostReads := rfl

@[simp] theorem State.loadReport_status (s : State) (r : Report) :
    (s.loadReport r).status = s.status ||| Flag.unrecognized.maskIf (r == .empty) := rfl

@[simp] theorem State.loadReport_report (s : State) (r : Report) :
    (s.loadReport r).report = r := rfl

@[simp] theorem State.loadReport_addr (s : State) (r : Report) : (s.loadReport r).addr = s.addr := rfl

@[simp] theorem State.loadReport_count (s : State) (r : Report) : (s.loadReport r).count = s.count := rfl

@[simp] theorem State.loadReport_value (s : State) (r : Report) : (s.loadReport r).value = s.value := rfl

@[simp] theorem State.loadReport_diag (s : State) (r : Report) : (s.loadReport r).diag = s.diag := rfl

@[simp] theorem State.loadReport_mem (s : State) (r : Report) : (s.loadReport r).mem = s.mem := rfl

@[simp] theorem State.loadReport_trace (s : State) (r : Report) : (s.loadReport r).trace = s.trace := rfl

@[simp] theorem State.loadReport_busHeld (s : State) (r : Report) : (s.loadReport r).busHeld = s.busHeld := rfl

@[simp] theorem State.loadReport_inflight (s : State) (r : Report) : (s.loadReport r).inflight = s.inflight := rfl

@[simp] theorem State.loadReport_inputs (s : State) (r : Report) : (s.loadReport r).inputs = s.inputs := rfl

@[simp] theorem State.loadReport_replies (s : State) (r : Report) : (s.loadReport r).replies = s.replies := rfl

@[simp] theorem State.loadReport_draws (s : State) (r : Report) : (s.loadReport r).draws = s.draws := rfl

@[simp] theorem State.loadReport_epoch (s : State) (r : Report) : (s.loadReport r).epoch = s.epoch := rfl

@[simp] theorem State.loadReport_hostReads (s : State) (r : Report) : (s.loadReport r).hostReads = s.hostReads := rfl

@[simp] theorem State.failDecode_status (s : State) :
    s.failDecode.status = s.status ||| Flag.decodeFail.mask := rfl

@[simp] theorem State.failDecode_report (s : State) :
    s.failDecode.report = .empty := rfl

@[simp] theorem State.failDecode_addr (s : State) : s.failDecode.addr = s.addr := rfl

@[simp] theorem State.failDecode_count (s : State) : s.failDecode.count = s.count := rfl

@[simp] theorem State.failDecode_value (s : State) : s.failDecode.value = s.value := rfl

@[simp] theorem State.failDecode_diag (s : State) : s.failDecode.diag = s.diag := rfl

@[simp] theorem State.failDecode_mem (s : State) : s.failDecode.mem = s.mem := rfl

@[simp] theorem State.failDecode_trace (s : State) : s.failDecode.trace = s.trace := rfl

@[simp] theorem State.failDecode_busHeld (s : State) : s.failDecode.busHeld = s.busHeld := rfl

@[simp] theorem State.failDecode_inflight (s : State) : s.failDecode.inflight = s.inflight := rfl

@[simp] theorem State.failDecode_inputs (s : State) : s.failDecode.inputs = s.inputs := rfl

@[simp] theorem State.failDecode_replies (s : State) : s.failDecode.replies = s.replies := rfl

@[simp] theorem State.failDecode_draws (s : State) : s.failDecode.draws = s.draws := rfl

@[simp] theorem State.failDecode_epoch (s : State) : s.failDecode.epoch = s.epoch := rfl

@[simp] theorem State.failDecode_hostReads (s : State) : s.failDecode.hostReads = s.hostReads := rfl

@[simp] theorem State.storeValue8_value (s : State) (r : ReadResult) :
    (s.storeValue8 r).value = if r.good then (byteAt r.payload 0).setWidth 16 else s.value := rfl

@[simp] theorem State.storeValue8_addr (s : State) (r : ReadResult) : (s.storeValue8 r).addr = s.addr := rfl

@[simp] theorem State.storeValue8_count (s : State) (r : ReadResult) : (s.storeValue8 r).count = s.count := rfl

@[simp] theorem State.storeValue8_status (s : State) (r : ReadResult) : (s.storeValue8 r).status = s.status := rfl

@[simp] theorem State.storeValue8_diag (s : State) (r : ReadResult) : (s.storeValue8 r).diag = s.diag := rfl

@[simp] theorem State.storeValue8_mem (s : State) (r : ReadResult) : (s.storeValue8 r).mem = s.mem := rfl

@[simp] theorem State.storeValue8_report (s : State) (r : ReadResult) : (s.storeValue8 r).report = s.report := rfl

@[simp] theorem State.storeValue8_trace (s : State) (r : ReadResult) : (s.storeValue8 r).trace = s.trace := rfl

@[simp] theorem State.storeValue8_busHeld (s : State) (r : ReadResult) : (s.storeValue8 r).busHeld = s.busHeld := rfl

@[simp] theorem State.storeValue8_inflight (s : State) (r : ReadResult) : (s.storeValue8 r).inflight = s.inflight := rfl

@[simp] theorem State.storeValue8_inputs (s : State) (r : ReadResult) : (s.storeValue8 r).inputs = s.inputs := rfl

@[simp] theorem State.storeValue8_replies (s : State) (r : ReadResult) : (s.storeValue8 r).replies = s.replies := rfl

@[simp] theorem State.storeValue8_draws (s : State) (r : ReadResult) : (s.storeValue8 r).draws = s.draws := rfl

@[simp] theorem State.storeValue8_epoch (s : State) (r : ReadResult) : (s.storeValue8 r).epoch = s.epoch := rfl

@[simp] theorem State.storeValue8_hostReads (s : State) (r : ReadResult) : (s.storeValue8 r).hostReads = s.hostReads := rfl

@[simp] theorem State.storeValue16_value (s : State) (r : ReadResult) :
    (s.storeValue16 r).value = if r.good then le16 (byteAt r.payload 0) (byteAt r.payload 1) else s.value := rfl

@[simp] theorem State.storeValue16_addr (s : State) (r : ReadResult) : (s.storeValue16 r).addr = s.addr := rfl

@[simp] theorem State.storeValue16_count (s : State) (r : ReadResult) : (s.storeValue16 r).count = s.count := rfl

@[simp] theorem State.storeValue16_status (s : State) (r : ReadResult) : (s.storeValue16 r).status = s.status := rfl

@[simp] theorem State.storeValue16_diag (s : State) (r : ReadResult) : (s.storeValue16 r).diag = s.diag := rfl

@[simp] theorem State.storeValue16_mem (s : State) (r : ReadResult) : (s.storeValue16 r).mem = s.mem := rfl

@[simp] theorem State.storeValue16_report (s : State) (r : ReadResult) : (s.storeValue16 r).report = s.report := rfl

@[simp] theorem State.storeValue16_trace (s : State) (r : ReadResult) : (s.storeValue16 r).trace = s.trace := rfl

@[simp] theorem State.storeValue16_busHeld (s : State) (r : ReadResult) : (s.storeValue16 r).busHeld = s.busHeld := rfl

@[simp] theorem State.storeValue16_inflight (s : State) (r : ReadResult) : (s.storeValue16 r).inflight = s.inflight := rfl

@[simp] theorem State.storeValue16_inputs (s : State) (r : ReadResult) : (s.storeValue16 r).inputs = s.inputs := rfl

@[simp] theorem State.storeValue16_replies (s : State) (r : ReadResult) : (s.storeValue16 r).replies = s.replies := rfl

@[simp] theorem State.storeValue16_draws (s : State) (r : ReadResult) : (s.storeValue16 r).draws = s.draws := rfl

@[simp] theorem State.storeValue16_epoch (s : State) (r : ReadResult) : (s.storeValue16 r).epoch = s.epoch := rfl

@[simp] theorem State.storeValue16_hostReads (s : State) (r : ReadResult) : (s.storeValue16 r).hostReads = s.hostReads := rfl

@[simp] theorem State.applyReset_addr (s : State) : s.applyReset.addr = State.reset.addr := rfl

@[simp] theorem State.applyReset_count (s : State) : s.applyReset.count = State.reset.count := rfl

@[simp] theorem State.applyReset_status (s : State) : s.applyReset.status = State.reset.status := rfl

@[simp] theorem State.applyReset_value (s : State) : s.applyReset.value = State.reset.value := rfl

@[simp] theorem State.applyReset_diag (s : State) : s.applyReset.diag = State.reset.diag := rfl

@[simp] theorem State.applyReset_mem (s : State) : s.applyReset.mem = State.reset.mem := rfl

@[simp] theorem State.applyReset_report (s : State) : s.applyReset.report = State.reset.report := rfl

@[simp] theorem State.applyReset_trace (s : State) : s.applyReset.trace = State.reset.trace := rfl

@[simp] theorem State.applyReset_busHeld (s : State) : s.applyReset.busHeld = State.reset.busHeld := rfl

@[simp] theorem State.applyReset_inflight (s : State) : s.applyReset.inflight = State.reset.inflight := rfl

@[simp] theorem State.applyReset_inputs (s : State) : s.applyReset.inputs = s.inputs := rfl

@[simp] theorem State.applyReset_replies (s : State) : s.applyReset.replies = s.replies := rfl

@[simp] theorem State.applyReset_draws (s : State) : s.applyReset.draws = s.draws := rfl

@[simp] theorem State.applyReset_epoch (s : State) : s.applyReset.epoch = s.epoch + 1 := rfl

@[simp] theorem State.applyReset_hostReads (s : State) : s.applyReset.hostReads = s.hostReads := rfl

end Sys2Proof.Machine
end

