-- ==== Sys2Proof/Laws/Ops.lean ====
section
/-! SUPPORT. What each shared operation can do, said once: the provers cite these instead of unfolding. -/

namespace Sys2Proof.Machine

@[simp] theorem andThen_next (s : State) (k : State → Result) : andThen (.next s) k = k s := rfl

@[simp] theorem andThen_fault (f : Fault) (k : State → Result) : andThen (.fault f) k = .fault f := rfl

@[simp] theorem andThen_refused (r : Refusal) (k : State → Result) :
    andThen (.refused r) k = .refused r := rfl

/-- A sequence answers a next state exactly through one of its first part. -/
theorem andThen_eq_next (o : Result) (k : State → Result) (t : State) :
    andThen o k = .next t ↔ ∃ s, o = .next s ∧ k s = .next t := by
  cases o <;> simp [andThen]

/-- STATUS with CMD_ERR alone is bit 4 (R24). -/
@[simp] theorem Flag.mask_cmdErr : Flag.mask .cmdErr = 0b010000 := by decide

@[simp] theorem Flag.mask_decodeFail : Flag.mask .decodeFail = 0b001000 := by decide

@[simp] theorem Flag.maskIf_unrecognized (b : Bool) :
    Flag.maskIf .unrecognized b = if b then 0b000100 else 0 := by
  cases b <;> decide

@[simp] theorem Flag.maskIf_qresult (b : Bool) :
    Flag.maskIf .qresult b = if b then 0b100000 else 0 := by
  cases b <;> decide

/-- A refused command leaves CMD_ERR alone and changes nothing else (R84). -/
theorem commandError_eq (s : State) : commandError s = .next { s with status := 0b010000 } := by
  simp [commandError, State.clearFlags, State.raise]

@[simp] theorem State.dataBytes_length (s : State) (n : Nat) : (s.dataBytes n).length = n := by
  simp [State.dataBytes]

@[simp] theorem State.pktBytes_length (s : State) : s.pktBytes.length = packetSize := by
  simp [State.pktBytes]

/-- The state after a draw: only the transport's list and the draw counter move. -/
theorem State.draw_state (s : State) :
    s.draw.2 = { s with replies := s.draw.2.replies, draws := s.draw.2.draws } := by
  unfold State.draw
  split <;> rfl

/-- What a draw answers depends on the transport's list and the draw counter alone. -/
theorem State.draw_congr (s t : State) (hr : t.replies = s.replies) (hd : t.draws = s.draws) :
    t.draw.1 = s.draw.1 ∧ t.draw.2.replies = s.draw.2.replies ∧ t.draw.2.draws = s.draw.2.draws := by
  unfold State.draw
  rw [hr, hd]
  split <;> simp

/-- A draw does not look at STATUS. -/
theorem State.draw_status (s : State) (st : BitVec 6) :
    State.draw { s with status := st } = (s.draw.1, { s.draw.2 with status := st }) := by
  have hc := State.draw_congr s { s with status := st } rfl rfl
  apply Prod.ext
  · exact hc.1
  · rw [State.draw_state { s with status := st }, hc.2.1, hc.2.2]
    conv_rhs => rw [State.draw_state s]

@[simp] theorem State.draw_addr (s : State) : s.draw.2.addr = s.addr := by
  rw [s.draw_state]

@[simp] theorem State.draw_count (s : State) : s.draw.2.count = s.count := by
  rw [s.draw_state]

@[simp] theorem State.draw_value (s : State) : s.draw.2.value = s.value := by
  rw [s.draw_state]

@[simp] theorem State.draw_diag (s : State) : s.draw.2.diag = s.diag := by
  rw [s.draw_state]

@[simp] theorem State.draw_mem (s : State) : s.draw.2.mem = s.mem := by
  rw [s.draw_state]

@[simp] theorem State.draw_report (s : State) : s.draw.2.report = s.report := by
  rw [s.draw_state]

@[simp] theorem State.draw_trace (s : State) : s.draw.2.trace = s.trace := by
  rw [s.draw_state]

@[simp] theorem State.draw_busHeld (s : State) : s.draw.2.busHeld = s.busHeld := by
  rw [s.draw_state]

@[simp] theorem State.draw_inflight (s : State) : s.draw.2.inflight = s.inflight := by
  rw [s.draw_state]

@[simp] theorem State.draw_inputs (s : State) : s.draw.2.inputs = s.inputs := by
  rw [s.draw_state]

@[simp] theorem State.draw_epoch (s : State) : s.draw.2.epoch = s.epoch := by
  rw [s.draw_state]

@[simp] theorem State.draw_hostReads (s : State) : s.draw.2.hostReads = s.hostReads := by
  rw [s.draw_state]

@[simp] theorem State.draw_keeps_status (s : State) : s.draw.2.status = s.status := by
  rw [s.draw_state]

/-- Two draws do not look at STATUS. -/
theorem State.draw_draw_status (s : State) (st : BitVec 6) :
    (State.draw { s with status := st }).2.draw =
      (s.draw.2.draw.1, { s.draw.2.draw.2 with status := st }) := by
  have h := congrArg Prod.snd (State.draw_status s st)
  simp only at h
  rw [h]
  exact State.draw_status s.draw.2 st

@[simp] theorem State.draw_cons (s : State) (r : Reply) (rest : List Reply) (h : s.replies = r :: rest) :
    s.draw = (r, { s with replies := rest }) := by
  simp [State.draw, h]

@[simp] theorem State.draw_nil (s : State) (h : s.replies = []) :
    s.draw = (.returns (Config.freeResponse s.draws), { s with draws := s.draws + 1 }) := by
  simp [State.draw, h]

/-- A bus write whose call returns (R57). -/
theorem busWrite_returns (bytes : List Byte) (stop : Bool) (s : State) (resp : List Byte)
    (h : s.draw.1 = .returns resp) :
    busWrite bytes stop s =
      .next { s.draw.2 with trace := s.trace ++ [.w bytes stop], busHeld := !stop } := by
  have hs := congrArg State.trace s.draw_state
  rcases hd : s.draw with ⟨r, t⟩
  rw [hd] at h hs
  simp only at h hs
  subst h
  simp only [busWrite, hd]
  rw [hs]

/-- A bus write whose call never returns (R59). -/
theorem busWrite_hangs (bytes : List Byte) (stop : Bool) (s : State) (h : s.draw.1 = .neverReturns) :
    busWrite bytes stop s = .fault .transportNeverReturns := by
  rcases hd : s.draw with ⟨r, t⟩
  rw [hd] at h
  simp only at h
  subst h
  simp only [busWrite, hd]

/-- A bus write answers a next state exactly when its call returns, and then as `busWrite_returns` says. -/
theorem busWrite_eq_next (bytes : List Byte) (stop : Bool) (s t : State) (h : busWrite bytes stop s = .next t) :
    (∃ resp, s.draw.1 = .returns resp) ∧
      t = { s.draw.2 with trace := s.trace ++ [.w bytes stop], busHeld := !stop } := by
  cases hd : s.draw.1 with
  | returns resp =>
    rw [busWrite_returns bytes stop s resp hd] at h
    exact ⟨⟨resp, rfl⟩, by simpa using h.symm⟩
  | neverReturns =>
    rw [busWrite_hangs bytes stop s hd] at h
    cases h

theorem busReply_returns (n : Nat) (k : List Byte → State → Result) (s : State) (resp : List Byte)
    (h : s.draw.1 = .returns resp) : busReply n k s = k (resp.take n) s.draw.2 := by
  rcases hd : s.draw with ⟨r, t⟩
  rw [hd] at h
  simp only at h
  subst h
  simp only [busReply, hd]

theorem busReply_hangs (n : Nat) (k : List Byte → State → Result) (s : State)
    (h : s.draw.1 = .neverReturns) : busReply n k s = .fault .transportNeverReturns := by
  rcases hd : s.draw with ⟨r, t⟩
  rw [hd] at h
  simp only at h
  subst h
  simp only [busReply, hd]

/-- A command that passes the prologue (R84). -/
theorem withPrologue_legal (i : Instr) (body : State → Result) (s : State) (h : countLegal i s = true) :
    withPrologue i body s = body s.clearFlags := by
  simp [withPrologue, h]

/-- A command the prologue refuses (R84, R85). -/
theorem withPrologue_illegal (i : Instr) (body : State → Result) (s : State)
    (h : countLegal i s = false) : withPrologue i body s = commandError s := by
  simp [withPrologue, h]

/-- The state in which a read's response is drawn: the request is on the trace and the bus is held. -/
def afterRequest (count : Half) (s : State) : State :=
  { s.draw.2 with trace := s.trace ++ [.w (readRequest s.addr count) false], busHeld := true }

/-- A whole read when both its calls return (R105 to R107). -/
theorem readTransaction_returns (count : Half) (store : State → ReadResult → State) (s : State)
    (ack resp : List Byte) (h1 : s.draw.1 = .returns ack)
    (h2 : s.draw.2.draw.1 = .returns resp) :
    readTransaction count store s =
      .next (store (State.recordResponse
          { s.draw.2.draw.2 with
            trace := s.trace ++ [.w (readRequest s.addr count) false], busHeld := true }
          count (resp.take (count.toNat + 3)))
        (emaReadCore count.toNat (resp.take (count.toNat + 3)))) := by
  have hc := State.draw_congr s.draw.2 (afterRequest count s) rfl rfl
  unfold readTransaction sendReadRequest
  rw [busWrite_returns _ _ _ _ h1, andThen_next]
  change busReply _ _ (afterRequest count s) = _
  rw [busReply_returns _ _ _ resp (by rw [hc.1]; exact h2)]
  congr 3
  rw [State.draw_state (afterRequest count s), State.draw_state s.draw.2, hc.2.1, hc.2.2]
  rfl

/-- A read answers a next state exactly when both its calls return. -/
theorem readTransaction_eq_next (count : Half) (store : State → ReadResult → State) (s t : State)
    (h : readTransaction count store s = .next t) :
    ∃ ack resp, s.draw.1 = .returns ack ∧ s.draw.2.draw.1 = .returns resp := by
  have hc := State.draw_congr s.draw.2 (afterRequest count s) rfl rfl
  cases h1 : s.draw.1 with
  | neverReturns =>
    unfold readTransaction sendReadRequest at h
    rw [busWrite_hangs _ _ _ h1] at h
    cases h
  | returns ack =>
    cases h2 : s.draw.2.draw.1 with
    | returns resp => exact ⟨ack, resp, rfl, rfl⟩
    | neverReturns =>
      unfold readTransaction sendReadRequest at h
      rw [busWrite_returns _ _ _ _ h1, andThen_next] at h
      change busReply _ _ (afterRequest count s) = _ at h
      rw [busReply_hangs _ _ _ (by rw [hc.1]; exact h2)] at h
      cases h

/-- A mode of DECODE writes REPORT and STATUS alone (R168). -/
theorem decodeReport_state (e : Byte) (s : State) :
    decodeReport e s =
      { s with report := (decodeReport e s).report, status := (decodeReport e s).status } := by
  unfold decodeReport
  split <;> rfl

end Sys2Proof.Machine
end

