-- ==== Sys2Proof/Laws/Commands.lean ====
section
/-! SUPPORT. The five ways a command can end, said once: refused by its count, a sent frame, a read, a
classification, an answer. Statements over all commands are case splits on this. -/

namespace Sys2Proof.Machine

/-- After the prologue a write command sends one frame (spec 40_ema_codec.md R100; 41_register_access.md R142). -/
theorem sendWriteFrame_next (a : Word) (p : List Byte) (s t : State)
    (h : sendWriteFrame a p s.clearFlags = .next t) :
    t = { s.draw.2 with status := 0, trace := s.trace ++ [.w (writeFrame a p) true], busHeld := false } := by
  have h2 := (busWrite_eq_next _ _ _ _ h).2
  rw [h2, State.clearFlags, State.draw_status]
  rfl

/-- After the prologue a read command ends in this state, with the response its second transport call returned
(R105 to R107, R64). -/
theorem readTransaction_next (count : Half) (store : State → ReadResult → State) (s t : State)
    (h : readTransaction count store s.clearFlags = .next t) :
    ∃ resp : List Byte, s.draw.2.draw.1 = .returns resp ∧
      t = store (State.recordResponse
          { s.draw.2.draw.2 with
            status := 0, trace := s.trace ++ [.w (readRequest s.addr count) false], busHeld := true }
          count (resp.take (count.toNat + 3)))
        (emaReadCore count.toNat (resp.take (count.toNat + 3))) := by
  obtain ⟨ack, resp, h1, h2⟩ := readTransaction_eq_next _ _ _ _ h
  rw [readTransaction_returns _ _ _ ack resp h1 h2] at h
  have e := State.draw_draw_status s 0
  rw [State.clearFlags, e] at h h2
  refine ⟨resp, h2, ?_⟩
  exact (Host.Outcome.next.inj h).symm

/-- The forms of a command that answers a next state. -/
theorem command_cases (i : Instr) (s t : State) (hc : i.isCommand = true) (h : exec i s = .next t) :
    (countLegal i s = false ∧ (i = .emaWrite ∨ i = .emaRead) ∧ t = { s with status := 0b010000 }) ∨
    (∃ p : List Byte, p.length ≤ 255 ∧
      ((i = .emaWrite ∧ p = s.writePayload) ∨ ∃ v, i = .wr8 v ∧ p = [v]) ∧
      t = { s.draw.2 with
        status := 0, trace := s.trace ++ [.w (writeFrame s.addr p) true], busHeld := false }) ∨
    (∃ (count : Half) (store : State → ReadResult → State) (resp : List Byte),
      ((i = .emaRead ∧ count = s.count ∧ store = State.storePayload) ∨
        (i = .rd8 ∧ count = 1 ∧ store = State.storeValue8) ∨
        (i = .rd16 ∧ count = 2 ∧ store = State.storeValue16)) ∧
      count.toNat ≤ Config.dataCap ∧ s.draw.2.draw.1 = .returns resp ∧
      t = store (State.recordResponse
          { s.draw.2.draw.2 with
            status := 0, trace := s.trace ++ [.w (readRequest s.addr count) false], busHeld := true }
          count (resp.take (count.toNat + 3)))
        (emaReadCore count.toNat (resp.take (count.toNat + 3)))) ∨
    (∃ e : Byte, ((i = .decodeAny ∧ e = 0x00) ∨ (i = .decodeMouse ∧ e = 0x06) ∨
        (i = .decodeKeyboard ∧ e = 0x08) ∨ (i = .decodeAbsolute ∧ e = 0x09)) ∧
      t = decodeReport e s.clearFlags) ∨
    (∃ b : Bool, (∃ a, i = .qvalid a ∨ i = .qcontact a ∨ i = .qbutton a) ∧
      t = s.clearFlags.answer b) := by
  have bounds := Config.dataCap_bounds
  cases i with
  | emaWrite =>
    by_cases hl : countLegal .emaWrite s = true
    · refine .inr (.inl ⟨s.writePayload, ?_, .inl ⟨rfl, rfl⟩, ?_⟩)
      · simpa [countLegal, State.writePayload] using hl
      · exact sendWriteFrame_next s.addr s.writePayload s t
          ((withPrologue_legal .emaWrite _ s hl).symm.trans h)
    · have hf := eq_false_of_ne_true hl
      refine .inl ⟨hf, .inl rfl, ?_⟩
      exact Host.Outcome.next.inj (h.symm.trans ((withPrologue_illegal .emaWrite _ s hf).trans (commandError_eq s)))
  | emaRead =>
    by_cases hl : countLegal .emaRead s = true
    · obtain ⟨resp, h1, h2⟩ := readTransaction_next s.count State.storePayload s t
        ((withPrologue_legal .emaRead _ s hl).symm.trans h)
      exact .inr (.inr (.inl ⟨s.count, _, resp, .inl ⟨rfl, rfl, rfl⟩, (Config.withinDataCap_iff _).1 hl, h1, h2⟩))
    · have hf := eq_false_of_ne_true hl
      refine .inl ⟨hf, .inr rfl, ?_⟩
      exact Host.Outcome.next.inj (h.symm.trans ((withPrologue_illegal .emaRead _ s hf).trans (commandError_eq s)))
  | rd8 =>
    obtain ⟨resp, h1, h2⟩ := readTransaction_next 1 State.storeValue8 s t h
    refine .inr (.inr (.inl ⟨1, _, resp, .inr (.inl ⟨rfl, rfl, rfl⟩), ?_, h1, h2⟩))
    exact Nat.le_trans (by decide) bounds.1
  | rd16 =>
    obtain ⟨resp, h1, h2⟩ := readTransaction_next 2 State.storeValue16 s t h
    refine .inr (.inr (.inl ⟨2, _, resp, .inr (.inr ⟨rfl, rfl, rfl⟩), ?_, h1, h2⟩))
    exact Nat.le_trans (by decide) bounds.1
  | wr8 v => exact .inr (.inl ⟨[v], by simp, .inr ⟨v, rfl, rfl⟩, sendWriteFrame_next s.addr [v] s t h⟩)
  | decodeAny => exact .inr (.inr (.inr (.inl ⟨0x00, .inl ⟨rfl, rfl⟩, (Host.Outcome.next.inj h).symm⟩)))
  | decodeMouse =>
    exact .inr (.inr (.inr (.inl ⟨0x06, .inr (.inl ⟨rfl, rfl⟩), (Host.Outcome.next.inj h).symm⟩)))
  | decodeKeyboard =>
    exact .inr (.inr (.inr (.inl ⟨0x08, .inr (.inr (.inl ⟨rfl, rfl⟩)), (Host.Outcome.next.inj h).symm⟩)))
  | decodeAbsolute =>
    exact .inr (.inr (.inr (.inl ⟨0x09, .inr (.inr (.inr ⟨rfl, rfl⟩)), (Host.Outcome.next.inj h).symm⟩)))
  | qvalid a => exact .inr (.inr (.inr (.inr ⟨_, ⟨a, .inl rfl⟩, (Host.Outcome.next.inj h).symm⟩)))
  | qcontact a => exact .inr (.inr (.inr (.inr ⟨_, ⟨a, .inr (.inl rfl)⟩, (Host.Outcome.next.inj h).symm⟩)))
  | qbutton a => exact .inr (.inr (.inr (.inr ⟨_, ⟨a, .inr (.inr rfl)⟩, (Host.Outcome.next.inj h).symm⟩)))
  | emaWriteFrame a p => cases hc
  | emaReadRequest a c => cases hc
  | emaReadResponse c b => cases hc
  | reportMouse b x y u p => cases hc
  | reportKeyboard m k => cases hc
  | reportAbsolute c f b => cases hc
  | reportEmpty id => cases hc

end Sys2Proof.Machine
end

