-- ==== Sys2Proof/Laws/HostAccess.lean ====
section
/-! SUPPORT. The words the host reads, field by field (spec 10_state.md R24, R27, R33; 20_memory.md R53). -/

namespace Sys2Proof.Machine

theorem wordOfHalves_toNat (lo hi : Half) :
    (wordOfHalves lo hi).toNat = lo.toNat + 65536 * hi.toNat := by
  have h : wordOfHalves lo hi = hi ++ lo := by
    apply BitVec.eq_of_getLsbD_eq
    intro i h32
    simp only [wordOfHalves, BitVec.getLsbD_or, BitVec.getLsbD_setWidth, BitVec.getLsbD_shiftLeft,
      BitVec.getLsbD_append]
    by_cases h : i < 16
    · simp [h, h32]
    · simp [h, h32, getLsbD_high lo i (by omega), show i - 16 < 32 by omega]
  rw [h, append_toNat]
  omega

/-- The fields of DIAG_SUM do not overlap (R27). -/
theorem diagSumWord_toNat (d : Diag) :
    (diagSumWord d).toNat = d.rxCsum.toNat + 0x100 * d.calcCsum.toNat +
      0x10000 * d.lenPresent.toNat + 0x20000 * d.csumPresent.toNat := by
  have hx : (le32 d.rxCsum d.calcCsum 0 0).toNat = d.rxCsum.toNat + 256 * d.calcCsum.toNat := by
    rw [le32_toNat]
    simp
  have hlt : d.rxCsum.toNat + 256 * d.calcCsum.toNat < 2 ^ 16 := by omega
  have key : ∀ k : Nat, (d.rxCsum.toNat + 256 * d.calcCsum.toNat) ||| 2 ^ 16 * k =
      2 ^ 16 * k + (d.rxCsum.toNat + 256 * d.calcCsum.toNat) := by
    intro k
    rw [Nat.or_comm, Nat.two_pow_add_eq_or_of_lt hlt]
  have h2 : (bitAt d.lenPresent 16 ||| bitAt d.csumPresent 17).toNat =
      2 ^ 16 * (d.lenPresent.toNat + 2 * d.csumPresent.toNat) := by
    cases d.lenPresent <;> cases d.csumPresent <;> decide
  unfold diagSumWord
  rw [BitVec.or_assoc, BitVec.toNat_or, hx, h2, key]
  omega

/-- STATUS as the host reads it, bit by bit (R24, R25). -/
theorem statusWord_bit (s : State) (dr : Bool) (i : Nat) (hi : i < 32) :
    (statusWord s dr).getLsbD i =
      if i < 6 then s.status.getLsbD i else if i = 7 then dr else false := by
  have hb : (bitAt dr 7).getLsbD i = (decide (i = 7) && dr) := by
    cases dr
    · simp [bitAt]
    · revert i
      decide
  by_cases h : i < 6
  · simp [statusWord, h, hi, hb, show i ≠ 7 by omega, BitVec.getLsbD_or, BitVec.getLsbD_setWidth,
      -BitVec.getLsbD_eq_getElem]
  · rw [if_neg h]
    simp only [statusWord, BitVec.getLsbD_or, BitVec.getLsbD_setWidth,
      getLsbD_high s.status i (by omega), hb]
    by_cases h7 : i = 7 <;> simp [h7]

/-- A word with no buffer byte in it reads 0 (R52, R53). -/
theorem windowWord_none (s : State) (b : Nat) (h : ∀ j, j < 4 → inBuffer (b + j) = false) :
    windowWord s b = 0 := by
  have h0 : inBuffer b = false := h 0 (by omega)
  simp [windowWord, State.readByte, h0, h 1 (by omega), h 2 (by omega), h 3 (by omega)]
  decide

/-- A write of a word with no buffer byte in it is ignored (R52, R53). -/
theorem writeWindowWord_none (s : State) (b : Nat) (w : Word)
    (h : ∀ j, j < 4 → inBuffer (b + j) = false) : writeWindowWord s b w = s := by
  have h0 : inBuffer b = false := h 0 (by omega)
  simp [writeWindowWord, le4Bytes, State.writeBytes, State.writeByte, h0, h 1 (by omega),
    h 2 (by omega), h 3 (by omega)]

theorem wordOffset_eq (o : Nat) : wordOffset o = o - o % 4 := by
  simp [wordOffset]
  omega

end Sys2Proof.Machine
end

