-- ==== Sys2Proof/Laws/PerInstr.lean ====
section
/-! SUPPORT. Facts made per instruction. Family EncodingShape: an instruction is encoded as its row's kind of
encoding, with the size the spec gives that kind (30_encoding.md R70 to R80). -/

namespace Sys2Proof.Laws.EncodingShape

/-- The kind and size of a row's encoding: a command word with RSV 0 (R80); a frame of 9 + n or 8 bytes (R71,
R72); at most count + 3 response bytes (R73); a packet of 53 bytes with its ID at byte 2 (R76). -/
def Statement (i : Instr) : Prop :=
  i.wellFormed = true →
    match encode i with
    | .command w => i.isCommand = true ∧ w.extractLsb' 16 16 = 0
    | .frame bytes => i.isCommand = false ∧ 8 ≤ bytes.length ∧ bytes.length ≤ 264
    | .response count bytes => i.isCommand = false ∧ bytes.length ≤ count.toNat + 3
    | .packet bytes => i.isCommand = false ∧ bytes.length = packetSize

theorem emaWrite : Statement .emaWrite := fun _ => ⟨rfl, commandWord_reserved _ _⟩
theorem emaRead : Statement .emaRead := fun _ => ⟨rfl, commandWord_reserved _ _⟩
theorem rd8 : Statement .rd8 := fun _ => ⟨rfl, commandWord_reserved _ _⟩
theorem wr8 (v : Byte) : Statement (.wr8 v) := fun _ => ⟨rfl, commandWord_reserved _ _⟩
theorem rd16 : Statement .rd16 := fun _ => ⟨rfl, commandWord_reserved _ _⟩
theorem decodeAny : Statement .decodeAny := fun _ => ⟨rfl, commandWord_reserved _ _⟩
theorem decodeMouse : Statement .decodeMouse := fun _ => ⟨rfl, commandWord_reserved _ _⟩
theorem decodeKeyboard : Statement .decodeKeyboard := fun _ => ⟨rfl, commandWord_reserved _ _⟩
theorem decodeAbsolute : Statement .decodeAbsolute := fun _ => ⟨rfl, commandWord_reserved _ _⟩
theorem qvalid (n : Byte) : Statement (.qvalid n) := fun _ => ⟨rfl, commandWord_reserved _ _⟩
theorem qcontact (n : Byte) : Statement (.qcontact n) := fun _ => ⟨rfl, commandWord_reserved _ _⟩
theorem qbutton (mask : Byte) : Statement (.qbutton mask) := fun _ => ⟨rfl, commandWord_reserved _ _⟩

theorem emaWriteFrame (a : Word) (payload : List Byte) : Statement (.emaWriteFrame a payload) := by
  intro h
  simp only [Instr.wellFormed, decide_eq_true_eq] at h
  refine ⟨rfl, ?_, ?_⟩
  all_goals
    rw [writeFrame_length]
    omega

theorem emaReadRequest (a : Word) (count : Half) : Statement (.emaReadRequest a count) := by
  intro _
  refine ⟨rfl, ?_, ?_⟩
  · rw [readRequest_length]
  · rw [readRequest_length]
    omega

theorem emaReadResponse (count : Half) (bytes : List Byte) : Statement (.emaReadResponse count bytes) := by
  intro h
  simp only [Instr.wellFormed, Bool.and_eq_true, decide_eq_true_eq] at h
  exact ⟨rfl, h.2⟩

theorem reportMouse (b x y s p : Byte) : Statement (.reportMouse b x y s p) := fun _ => ⟨rfl, rfl⟩

theorem reportKeyboard (m : Byte) (k : Vector Byte 6) : Statement (.reportKeyboard m k) := by
  intro _
  refine ⟨rfl, ?_⟩
  simp [packetBytes, packetSize]

theorem reportAbsolute (c : Byte) (f : Vector FingerData 5) (b : Byte) :
    Statement (.reportAbsolute c f b) := by
  intro _
  refine ⟨rfl, ?_⟩
  have h : (f.toList.flatMap fingerBytes).length = 25 := by
    have hf : ∀ l : List FingerData, (l.flatMap fingerBytes).length = 5 * l.length := by
      intro l
      induction l with
      | nil => rfl
      | cons x xs ih =>
        rw [List.flatMap_cons, List.length_append, ih]
        simp [fingerBytes]
        omega
    rw [hf]
    simp
  simp [packetBytes, packetSize, absoluteFields, h]

theorem reportEmpty (id : Byte) : Statement (.reportEmpty id) := fun _ => ⟨rfl, rfl⟩

end Sys2Proof.Laws.EncodingShape
end

