-- ==== Sys2Proof/Laws/Step.lean ====
section
/-! SUPPORT. What a step does for each kind of input and phase: the step, said once by cases. -/

namespace Sys2Proof.Machine

theorem step_idle (s : State) (hp : s.inflight = none) (hi : s.inputs = []) : step s = .next s := by
  simp [step, fetch, hp, hi]

theorem step_input (s : State) (i : Input) (rest : List Input) (hp : s.inflight = none)
    (hi : s.inputs = i :: rest) :
    step s = match fetchInput i { s with inputs := rest } with
      | .run j t => exec j t
      | .done o => o := by
  cases s
  simp only at hp hi
  subst hp hi
  rfl

theorem step_phase (s : State) (p : Phase) (hp : s.inflight = some p) :
    step s = match fetchPhase p { s with inflight := none } with
      | .run j t => exec j t
      | .done o => o := by
  cases s
  simp only at hp
  subst hp
  rfl

/-- A host write of a word that decodes runs its command (R23, R83). -/
theorem step_command (s : State) (o : Nat) (w : Word) (rest : List Input) (i : Instr)
    (hp : s.inflight = none) (hi : s.inputs = .write o w :: rest) (ho : o < 4)
    (hd : decode (.command w) = .ok i) : step s = exec i { s with inputs := rest } := by
  have h1 : ¬ hostSpaceSize ≤ o := by simp [hostSpaceSize]; omega
  have h2 : wordOffset o = 0 := by simp [wordOffset]; omega
  simp [step_input s _ rest hp hi, fetchInput, fetchWrite, h1, h2, hd]

/-- A host write of an Illegal word to CMD (R84). -/
theorem step_illegal (s : State) (o : Nat) (w : Word) (rest : List Input) (e : DecodeError)
    (hp : s.inflight = none) (hi : s.inputs = .write o w :: rest) (ho : o < 4)
    (hd : decode (.command w) = .error e) : step s = commandError { s with inputs := rest } := by
  have h1 : ¬ hostSpaceSize ≤ o := by simp [hostSpaceSize]; omega
  have h2 : wordOffset o = 0 := by simp [wordOffset]; omega
  simp [step_input s _ rest hp hi, fetchInput, fetchWrite, h1, h2, hd]

/-- A host write of any other offset only stores (R55). -/
theorem step_store (s : State) (o : Nat) (w : Word) (rest : List Input) (hp : s.inflight = none)
    (hi : s.inputs = .write o w :: rest) (h4 : 4 ≤ o) (ho : o < hostSpaceSize) :
    step s = .next (hostWriteWord { s with inputs := rest } o w) := by
  have h1 : ¬ hostSpaceSize ≤ o := by omega
  have h2 : wordOffset o ≠ 0 := by simp [wordOffset]; omega
  simp [step_input s _ rest hp hi, fetchInput, fetchWrite, h1, h2]

/-- A host read (R52, R55). -/
theorem step_read (s : State) (o : Nat) (dr : Bool) (rest : List Input) (hp : s.inflight = none)
    (hi : s.inputs = .read o dr :: rest) : step s = hostRead o dr { s with inputs := rest } := by
  simp [step_input s _ rest hp hi, fetchInput]

/-- A form in `inflight` that decodes to a well-formed instruction is run. -/
theorem fetchForm_run (e : Encoded) (s : State) (i : Instr) (hd : decode e = .ok i)
    (hw : i.wellFormed = true) : fetchForm e s = .run i s := by
  simp [fetchForm, hd, hw]

end Sys2Proof.Machine
end

