-- ==== Sys2Proof/Tests/Slice0.lean ====
section
/-! SUPPORT. The model's own tests (expected values from spec/30_encoding.md and the vectors of
spec/95_test_vectors.md, named in each comment) and, after them, the witnesses: for every statement with
hypotheses a concrete state and operands that meet them. -/

namespace Sys2Proof.Tests

open Sys2Proof.Machine

/-! ### Helpers -/

/-- The state after reset with these host accesses and transport replies to come. -/
def start (inputs : List Input) (replies : List Reply) : State :=
  { State.reset with inputs := inputs, replies := replies }

/-- A field of the next state; none when the step stops. -/
def seen {α : Type} (o : Result) (f : State → α) : Option α :=
  match o with
  | .next s => some (f s)
  | .fault _ => none
  | .refused _ => none

/-- A read at `a` of `n` bytes, with the response to come. -/
def reading (a : Word) (n : Half) (resp : List Byte) : State :=
  { start [] [.returns [], .returns resp] with addr := a, count := n }

/-- PKT holding these bytes from offset 2 on, and zeros after them. -/
def packetState (bytes : List Byte) : State :=
  State.reset.writeBytes 0x800 ([0, 0] ++ bytes ++ List.replicate (51 - bytes.length) 0)

/-- The S2 packet's bytes from offset 3 on, with these palm bits. -/
def s2Fields (p0 p1 p2 p3 p4 : Byte) : List Byte :=
  [0x15, p0, 0x64, 0x00, 0xC8, 0x00, p1, 0x64, 0x00, 0xC8, 0x00, p2, 0x64, 0x00, 0xC8, 0x00,
    p3, 0x64, 0x00, 0xC8, 0x00, p4, 0x64, 0x00, 0xC8, 0x00, 0x01]

/-- A finger of S2 with these palm bits. -/
def s2Finger (p : Byte) : FingerData := { x := 100, y := 200, palmBits := p }

/-- The Absolute report of section 6 of the vectors, for the palm bits of finger 2. -/
def reportA (p2 : Byte) : Report :=
  .absolute 0x15 #v[s2Finger 0x02, s2Finger 0x00, s2Finger p2, s2Finger 0xFF, s2Finger 0x02] 0x01

/-- The state after reset with this report. -/
def holding (r : Report) : State := { State.reset with report := r }

/-- A packet of 53 bytes from its bytes at offset 2 on. -/
def packetOf (bytes : List Byte) : List Byte :=
  [0, 0] ++ bytes ++ List.replicate (51 - bytes.length) 0

/-! ### Decoding: every constructor, its word or bytes written out from the tables of 30_encoding.md -/

theorem test_decode_emaWrite : decode (.command 0b00000000000000000000000000000001) = .ok .emaWrite := by decide
theorem test_decode_emaRead : decode (.command 0b00000000000000000000000000000010) = .ok .emaRead := by decide
theorem test_decode_rd8 : decode (.command 0b00000000000000000000000000000011) = .ok .rd8 := by decide
/-- V-C6 -/
theorem test_decode_wr8 : decode (.command 0b00000000000000001111111100000100) = .ok (.wr8 0xFF) := by decide
theorem test_decode_rd16 : decode (.command 0b00000000000000000000000000000101) = .ok .rd16 := by decide
theorem test_decode_decodeAny : decode (.command 0b00000000000000000000000000010000) = .ok .decodeAny := by decide
theorem test_decode_decodeMouse : decode (.command 0b00000000000000000000011000010000) = .ok .decodeMouse := by decide
theorem test_decode_decodeKeyboard : decode (.command 0b00000000000000000000100000010000) = .ok .decodeKeyboard := by
  decide
theorem test_decode_decodeAbsolute : decode (.command 0b00000000000000000000100100010000) = .ok .decodeAbsolute := by
  decide
/-- V-C15 -/
theorem test_decode_qvalid : decode (.command 0b00000000000000001111111100100000) = .ok (.qvalid 255) := by decide
theorem test_decode_qcontact : decode (.command 0b00000000000000000000010000100001) = .ok (.qcontact 4) := by decide
theorem test_decode_qbutton : decode (.command 0b00000000000000001000000100100010) = .ok (.qbutton 0x81) := by decide
/-- V-W6 -/
theorem test_decode_writeFrame :
    decode (.frame [0x00, 0x09, 0x78, 0x56, 0x34, 0x12, 0x03, 0x00, 0xAA, 0xBB, 0xCC, 0x51]) =
      .ok (.emaWriteFrame 0x12345678 [0xAA, 0xBB, 0xCC]) := by decide
/-- V-P3 -/
theorem test_decode_readRequest :
    decode (.frame [0x01, 0x09, 0x78, 0x56, 0x34, 0x12, 0x00, 0x00]) = .ok (.emaReadRequest 0x12345678 0) := by decide
/-- V-P3 and V-W3 with two more bytes after the frame (the model's choice, log 25) -/
theorem test_decode_frame_rest :
    decode (.frame [0x01, 0x09, 0x78, 0x56, 0x34, 0x12, 0x00, 0x00, 0xAA, 0xBB]) = .ok (.emaReadRequest 0x12345678 0) ∧
    decode (.frame [0x00, 0x09, 0x0A, 0x00, 0x00, 0x20, 0x00, 0x00, 0x33, 0xAA, 0xBB]) =
      .ok (.emaWriteFrame 0x2000000A []) := by decide
/-- V-R14: the fifth byte of a response to a request of 1 + 3 bytes is ignored. -/
theorem test_decode_readResponse :
    decode (.response 1 [0x03, 0x00, 0x5A, 0x5D, 0x99]) = .ok (.emaReadResponse 1 [0x03, 0x00, 0x5A, 0x5D]) := by
  decide
/-- S1 -/
theorem test_decode_reportMouse :
    decode (.packet (packetOf [0x06, 0x01, 0xFE, 0x02, 0x00, 0x00])) =
      .ok (.reportMouse 0x01 0xFE 0x02 0x00 0x00) := by decide
/-- V-D3 -/
theorem test_decode_reportKeyboard :
    decode (.packet (packetOf [0x08, 0x02, 0xFF, 0x04, 0x05, 0x06, 0x07, 0x08, 0x09])) =
      .ok (.reportKeyboard 0x02 #v[0x04, 0x05, 0x06, 0x07, 0x08, 0x09]) := by decide
/-- S2 -/
theorem test_decode_reportAbsolute :
    decode (.packet (packetOf ([0x09] ++ s2Fields 0x02 0x02 0x02 0x02 0x02))) =
      .ok (.reportAbsolute 0x15
        #v[s2Finger 0x02, s2Finger 0x02, s2Finger 0x02, s2Finger 0x02, s2Finger 0x02] 0x01) := by decide
/-- V-D6 -/
theorem test_decode_reportEmpty : decode (.packet (packetOf [0x07])) = .ok (.reportEmpty 0x07) := by decide

/-- V-C1, V-C3, V-C4, V-C5, V-C7, V-C10 -/
theorem test_decode_illegal :
    decode (.command 0x00000000) = .error .unknownOp ∧ decode (.command 0x00000101) = .error .argNotZero ∧
    decode (.command 0x00010001) = .error .reservedBits ∧ decode (.command 0x80000022) = .error .reservedBits ∧
    decode (.command 0x00000510) = .error .unknownKind ∧ decode (.command 0x000000FF) = .error .unknownOp := by decide
/-- R71, R75 -/
theorem test_decode_frame_rejects :
    decode (.frame [0x02, 0x09, 0, 0, 0, 0, 0, 0]) = .error .unknownDirection ∧
    decode (.frame [0x00, 0x08, 0, 0, 0, 0, 0, 0, 0]) = .error .unknownSelector ∧
    decode (.frame [0x00, 0x09, 0, 0, 0, 0, 0, 1]) = .error .countOver255 ∧
    decode (.frame [0x00, 0x09, 0, 0, 0, 0, 1, 0, 0x55]) = .error .frameTooShort ∧
    decode (.frame [0x01, 0x09, 0]) = .error .frameTooShort := by decide
/-- R76: a RawPacket has exactly 53 bytes. -/
theorem test_decode_packet_rejects :
    decode (.packet (List.replicate 52 0)) = .error .packetSize ∧
    decode (.packet (List.replicate 54 0)) = .error .packetSize := by decide

/-! ### WellFormed: each check refuses a term -/

/-- n ≤ 255 (R71) -/
theorem test_illFormed_writeFrame : (Instr.emaWriteFrame 0 (List.replicate 256 0)).wellFormed = false := by
  simp only [Instr.wellFormed, List.length_replicate]
  decide
/-- count ≤ DATA_CAP ≤ 65532 (R8, R85) -/
theorem test_illFormed_readRequest : (Instr.emaReadRequest 0 65533).wellFormed = false := by
  have h := Config.dataCap_bounds.2
  simp [Instr.wellFormed, Config.withinDataCap]
  omega
theorem test_illFormed_readResponse_count : (Instr.emaReadResponse 65533 []).wellFormed = false := by
  have h := Config.dataCap_bounds.2
  simp [Instr.wellFormed, Config.withinDataCap]
  omega
/-- at most count + 3 bytes (R58) -/
theorem test_illFormed_readResponse_length :
    (Instr.emaReadResponse 1 [0x03, 0x00, 0x5A, 0x5D, 0x99]).wellFormed = false := by decide
/-- 0x06, 0x08 and 0x09 are not Empty (R76) -/
theorem test_illFormed_reportEmpty :
    (Instr.reportEmpty 0x06).wellFormed = false ∧ (Instr.reportEmpty 0x08).wellFormed = false ∧
      (Instr.reportEmpty 0x09).wellFormed = false := by decide

/-! ### One step of each instruction -/

/-- V-W1, with the frame as the one event -/
theorem test_emaWrite_frame :
    seen (exec .emaWrite { start [] [.returns []] with addr := 0x20000008, count := 1, mem := [(0x1000, 0x55)] })
      State.trace = some [.w [0x00, 0x09, 0x08, 0x00, 0x00, 0x20, 0x01, 0x00, 0x55, 0x87] true] := by decide
/-- V-C11: COUNT = 256 -/
theorem test_emaWrite_count : exec .emaWrite { State.reset with count := 256 } =
    .next { State.reset with count := 256, status := 0x10 } := by rfl
/-- V-R5: a bad checksum; DATA is written all the same -/
theorem test_emaRead_bad_checksum :
    seen (exec .emaRead (reading 0x2000000A 2 [0x04, 0x00, 0x35, 0x12, 0x4A]))
      (fun t => (t.status, t.mem)) = some (1, [(0x1000, 0x35), (0x1001, 0x12)]) := by decide
/-- V-R10: a truncated response; only the byte that arrived is written -/
theorem test_emaRead_truncated :
    seen (exec .emaRead (reading 0x2000000A 2 [0x04, 0x00, 0x34])) (fun t => (t.status, t.mem,
      (hostReadWord t 0x014 false, hostReadWord t 0x018 false, hostReadWord t 0x01C false))) =
      some (3, [(0x1000, 0x34)], (0x00030004, 0x00013800, 3)) := by decide
/-- V-R2, P1 -/
theorem test_rd8_good :
    seen (exec .rd8 (reading 0x20000008 9 [0x03, 0x00, 0x5A, 0x5D])) (fun t => (t.value, t.status, t.trace)) =
      some (0x005A, 0, [.w [0x01, 0x09, 0x08, 0x00, 0x00, 0x20, 0x01, 0x00] false,
        .q 4 true [0x03, 0x00, 0x5A, 0x5D]]) := by decide
/-- V-R3: VALUE keeps its value -/
theorem test_rd8_bad : seen (exec .rd8 { reading 0 0 [0x03, 0x00, 0x5A, 0x5E] with value := 0xBEEF })
    (fun t => (t.value, t.status)) = some (0xBEEF, 1) := by decide
/-- V-W2 -/
theorem test_wr8_frame :
    seen (exec (.wr8 0x55) { start [] [.returns []] with addr := 0x20000008 }) State.trace =
      some [.w [0x00, 0x09, 0x08, 0x00, 0x00, 0x20, 0x01, 0x00, 0x55, 0x87] true] := by decide
/-- V-R18: low byte first -/
theorem test_rd16_good : seen (exec .rd16 (reading 0 0 [0x04, 0x00, 0x12, 0x34, 0x4A]))
    (fun t => (t.value, t.status)) = some (0x3412, 0) := by decide
/-- V-R6: LEN_MISMATCH alone -/
theorem test_rd16_length : seen (exec .rd16 (reading 0 0 [0x05, 0x00, 0x34, 0x12, 0x4B]))
    (fun t => (t.value, t.status)) = some (0, 2) := by decide
/-- V-D2 -/
theorem test_decodeMouse : seen (exec .decodeMouse (packetState [0x06, 0x00, 0x80, 0x7F, 0xFF, 0x01]))
    (fun t => (t.report, t.status, hostReadWord t 0x108 false)) =
      some (.mouse 0x00 0x80 0x7F 0xFF 0x01, 0, 0x01FF7F80) := by decide
/-- V-D10 -/
theorem test_decodeMouse_fail : seen (exec .decodeMouse (packetState [0x09])) (fun t => (t.report, t.status)) =
    some (.empty, 8) := by decide
/-- V-D3, V-H8 -/
theorem test_decodeKeyboard :
    seen (exec .decodeKeyboard (packetState [0x08, 0x02, 0xFF, 0x04, 0x05, 0x06, 0x07, 0x08, 0x09]))
      (fun t => (hostReadWord t 0x10C false, hostReadWord t 0x110 false, hostReadWord t 0x114 false)) =
      some (0x02, 0x07060504, 0x00000908) := by decide
/-- V-D9 -/
theorem test_decodeKeyboard_fail :
    seen (exec .decodeKeyboard (packetState [0x06, 0x01, 0xFE, 0x02])) (fun t => (t.report, t.status)) =
      some (.empty, 8) := by decide
/-- V-D4 -/
theorem test_decodeAbsolute :
    seen (exec .decodeAbsolute (packetState ([0x09] ++ s2Fields 0x02 0x02 0x02 0x02 0x02)))
      (fun t => (hostReadWord t 0x118 false, hostReadWord t 0x120 false, hostReadWord t 0x144 false,
        hostReadWord t 0x104 false)) = some (0x15, 0x00C80064, 0x02, 0x01) := by decide
/-- V-D11: DECODE_FAIL, not UNRECOGNIZED -/
theorem test_decodeAbsolute_fail :
    seen (exec .decodeAbsolute (packetState [0x07])) (fun t => (t.report, t.status)) = some (.empty, 8) := by decide
/-- V-D1 -/
theorem test_decodeAny_mouse :
    seen (exec .decodeAny (packetState [0x06, 0x01, 0xFE, 0x02, 0x00, 0x00])) (fun t => (t.report, t.status)) =
      some (.mouse 0x01 0xFE 0x02 0x00 0x00, 0) := by decide
/-- V-D6 -/
theorem test_decodeAny_empty :
    seen (exec .decodeAny (packetState [0x07])) (fun t => (t.report, t.status)) = some (.empty, 4) := by decide
/-- V-Q2, V-Q6, V-Q7 -/
theorem test_qvalid_false : ∀ n : Byte, n = 1 ∨ n = 5 ∨ n = 255 →
    seen (exec (.qvalid n) (holding (reportA 0x02))) State.status = some 0 := by
  rintro n (rfl | rfl | rfl) <;> decide
/-- V-Q1, V-Q3, V-Q4, whichever bit PALM_REJECT_MASK is -/
theorem test_qvalid_masks : palmValid 0x02 = true ∧ palmValid (0x02 ||| Config.palmRejectMask) = false ∧
    palmValid 0xFF = false := by
  unfold palmValid Config.palmRejectMask
  generalize Config.palmRejectSlot = p
  revert p
  decide
/-- V-Q8, V-Q9 -/
theorem test_qcontact :
    [0, 1, 2, 3, 4, 5].map (fun n => seen (exec (.qcontact n) (holding (reportA 0x02))) State.status) =
      [some 0x20, some 0, some 0x20, some 0, some 0x20, some 0] := by decide
/-- V-Q11, V-Q12, V-Q13 -/
theorem test_qbutton_absolute :
    [0x01, 0x02, 0x00].map (fun m => seen (exec (.qbutton m) (holding (reportA 0x02))) State.status) =
      [some 0x20, some 0, some 0] := by decide
/-- V-Q14, V-Q16, V-Q17 -/
theorem test_qbutton_others :
    [.mouse 0x01 0xFE 0x02 0x00 0x00, .keyboard 0xFF #v[4, 5, 6, 7, 8, 9], .empty].map
      (fun r => seen (exec (.qbutton 0xFF) (holding r)) State.status) = [some 0x20, some 0, some 0] := by decide
/-- V-W5 -/
theorem test_writeFrame_form :
    seen (exec (.emaWriteFrame 0xFFFFFFFF [0xFF]) (start [] [.returns []])) (fun t => (t.trace, t.busHeld)) =
      some ([.w [0x00, 0x09, 0xFF, 0xFF, 0xFF, 0xFF, 0x01, 0x00, 0xFF, 0x05] true], false) := by decide
/-- V-P1 -/
theorem test_readRequest_form :
    seen (exec (.emaReadRequest 0x20000008 1) (start [] [.returns []])) (fun t => (t.trace, t.busHeld, t.inflight)) =
      some ([.w [0x01, 0x09, 0x08, 0x00, 0x00, 0x20, 0x01, 0x00] false], true, some (.awaitResponse 1)) := by decide
/-- V-R17 -/
theorem test_readResponse_form :
    seen (exec (.emaReadResponse 1 [0x03, 0x01, 0x5A, 0x5E]) { State.reset with busHeld := true })
      (fun t => (t.status, t.mem, t.busHeld, hostReadWord t 0x014 false)) =
      some (2, [(0x1000, 0x5A)], false, 0x00030103) := by decide
/-- S1, by the packet form -/
theorem test_reportMouse_form : seen (exec (.reportMouse 0x01 0xFE 0x02 0x00 0x00) State.reset)
    (fun t => (hostReadWord t 0x104 false, hostReadWord t 0x108 false)) = some (0x01, 0x000002FE) := by decide
theorem test_reportKeyboard_form : seen (exec (.reportKeyboard 0x02 #v[4, 5, 6, 7, 8, 9]) State.reset)
    (fun t => (hostReadWord t 0x100 false, hostReadWord t 0x110 false)) = some (0x08, 0x07060504) := by decide
theorem test_reportAbsolute_form :
    seen (exec (.reportAbsolute 0x15 (Vector.replicate 5 (s2Finger 0x02)) 0x01) State.reset)
      (fun t => (hostReadWord t 0x100 false, hostReadWord t 0x140 false)) = some (0x09, 0x00C80064) := by decide
/-- V-D7 -/
theorem test_reportEmpty_form : seen (exec (.reportEmpty 0x00) (holding (reportA 0x02)))
    (fun t => (t.report, t.status)) = some (.empty, 4) := by decide

/-! ### Host accesses, the step, the table words -/

/-- V-H2 -/
theorem test_count_write : seen (step (start [.write 0x00C 0x12345678] []))
    (fun t => (t.count, hostReadWord t 0x00C false)) = some (0x5678, 0x00005678) := by decide
/-- V-H9 -/
theorem test_status_dataReady : hostReadWord State.reset 0x004 true = 0x00000080 := by decide
/-- V-C9: an Illegal word -/
theorem test_step_illegal : seen (step (start [.write 0x000 0x00000011] [])) State.status = some 0x10 := by decide
/-- P3: the words of the S2 packet go into PKT low byte first (R53) -/
theorem test_pkt_word : seen (step (start [.write 0x804 0xC8006402] [])) State.mem =
    some [(0x804, 0x02), (0x805, 0x64), (0x806, 0x00), (0x807, 0xC8)] := by decide
/-- R53: the word at 0x834 has one byte of PKT, 0x834 -/
theorem test_pkt_last_word : seen (step (start [.write 0x834 0x44332211] [])) State.mem =
    some [(0x834, 0x11)] := by decide
/-- R58: a query before each byte and one at the end -/
theorem test_request_primitives : ((Event.q 4 true [3, 0]).primitives).drop 1 =
    [.availableCount true, .readByte 3, .availableCount true, .readByte 0, .availableCount false] := by rfl
/-- R240 -/
theorem test_reset_in_command : step (start [.resetInCommand] []) = .refused .resetDuringCommand := by rfl
/-- P1's host program -/
theorem test_pseudo : programInputs (Pseudo.expand (.regWrite8 0x20000008 0x55)) =
    [.write 0x008 0x20000008, .write 0x000 0x00005504] := by decide
/-- S1 as a table word: a packet row's bits are its byte 2. -/
theorem test_table_words : decodeTableWord 32 0x00005504 = some (.wr8 0x55) ∧
    decodeTableWord 16 0x0900 = some (.emaWriteFrame 0 []) ∧ decodeTableWord 16 0x0901 = some (.emaReadRequest 0 0) ∧
    decodeTableWord 8 0x06 = some (.reportMouse 0 0 0 0 0) ∧ decodeTableWord 8 0x07 = some (.reportEmpty 0x07) ∧
    decodeTableWord 32 0x00010001 = none := by decide
theorem test_fetchWord_command : seen (step (State.reset.withFetchWord 32 0x00000022)) State.status = some 0 := by
  decide
theorem test_fetchWord_frame : seen (step (State.reset.withFetchWord 16 0x0900)) State.trace =
    some [.w [0x00, 0x09, 0, 0, 0, 0, 0, 0, 0x09] true] := by decide
theorem test_fetchWord_packet : seen (step (State.reset.withFetchWord 8 0x06)) State.report =
    some (.mouse 0 0 0 0 0) := by decide

/-! ### Witnesses: concrete states and operands that meet the hypotheses of each statement -/

theorem wit_ResetGivesTheSpecsValues : inBuffer 0x800 = true ∧ inBuffer 0x1000 = true := by decide

theorem wit_ResetTakesEffectOnlyBetweenCommands :
    ((start [.reset] []).inflight = none ∧ (start [.reset] []).inputs = .reset :: [] ∧
      (start [.reset] []).busHeld = false) ∧
    ({ start [.reset] [] with busHeld := true }.inputs = .reset :: [] ∧
      { start [.reset] [] with busHeld := true }.busHeld = true) ∧
    (start [.resetInCommand] []).inputs = .resetInCommand :: [] := ⟨⟨rfl, rfl, rfl⟩, ⟨rfl, rfl⟩, rfl⟩

/-- Bits 5, 6, 7, 8 of STATUS with every flag and the line set. -/
theorem wit_StatusReadShowsFlagsAndLiveLine :
    [5, 6, 7, 8].map (hostReadWord { State.reset with status := 0x3F } 0x004 true).getLsbD =
      [true, false, true, false] := by decide

/-- Each variant's boundary offsets: the last register of one field and the first of the next. -/
theorem wit_HostReadsReportRegisters :
    [0x100, 0x147].map (fun o => hostReadWord (holding .empty) o false) = [0, 0] ∧
    [0x108, 0x10C, 0x147].map (fun o => hostReadWord (holding (.mouse 1 2 3 4 5)) o false) =
      [0x05040302, 0, 0] ∧
    [0x117, 0x118].map (fun o => hostReadWord (holding (.keyboard 1 #v[4, 5, 6, 7, 8, 9])) o false) =
      [0x0908, 0] ∧
    [0x117, 0x118, 0x120, 0x144].map (fun o => hostReadWord (holding (reportA 0x02)) o false) =
      [0, 0x15, 0x00C80064, 0x02] ∧
    hostWriteWord State.reset 0x147 0xFFFFFFFF = State.reset := by decide

theorem wit_HostReadHasNoSideEffect : (start [.read 0x10FFF true] []).inflight = none ∧
    (start [.read 0x10FFF true] []).inputs = .read 0x10FFF true :: [] ∧ 0x10FFF < 0x11000 := by decide

/-- Both ends of both registers' words. -/
theorem wit_HostWriteStoresAddrAndCount :
    [0x008, 0x00B].map (fun o => seen (step (start [.write o 0x89ABCDEF] [])) State.addr) =
      [some 0x89ABCDEF, some 0x89ABCDEF] ∧
    [0x00C, 0x00F].map (fun o => seen (step (start [.write o 0x89ABCDEF] [])) State.count) =
      [some 0xCDEF, some 0xCDEF] := by decide

/-- The last word of PKT: its byte 0 exists, its byte 1 does not. -/
theorem wit_WindowWordsHoldFourBytes : 0x834 % 4 = 0 ∧ 0x800 ≤ 0x834 ∧ inBuffer (0x834 + 0) = true ∧
    inBuffer (0x834 + 1) = false ∧ inBuffer 0x800 = true ∧ inBuffer 0x7FF = false ∧
    inBuffer 0xFFF = false ∧ inBuffer 0x1000 = true := by decide

/-- Both ends of each unmapped range, and the last word of the space, which is past DATA for every DATA_CAP. -/
theorem wit_UnmappedOffsetsReadZeroAndIgnoreWrites :
    [0x020, 0x0FF, 0x11C, 0x11F, 0x148, 0x7FF, 0x838, 0xFFF].map
      (fun o => hostReadWord (holding (reportA 0x02)) o true) = [0, 0, 0, 0, 0, 0, 0, 0] ∧
    [0x004, 0x007, 0x010, 0x01F, 0x100, 0x147].map
      (fun o => hostWriteWord (holding (reportA 0x02)) o 0xFFFFFFFF) =
      List.replicate 6 (holding (reportA 0x02)) ∧
    0x1000 + Config.dataCap ≤ 0x10FFF - 0x10FFF % 4 := by
  refine ⟨by decide, by decide, ?_⟩
  have h := Config.dataCap_bounds.2
  omega

theorem wit_HostAccessesStoreOrStop :
    ((start [.write 4 0] []).inflight = none ∧ (start [.write 4 0] []).inputs = .write 4 0 :: [] ∧
      (start [.write 0x10FFF 0] []).inputs = .write 0x10FFF 0 :: []) ∧
    (start [.write 0x11000 0] []).inputs = .write 0x11000 0 :: [] ∧
    (start [.read 0x11000 true] []).inputs = .read 0x11000 true :: [] := ⟨⟨rfl, rfl, rfl⟩, rfl, rfl⟩

theorem wit_NoInputNoChange : State.reset.inflight = none ∧ State.reset.inputs = [] := by decide

theorem wit_CommandWordStepRunsItsCommand : (start [.write 3 0x00001234] []).inflight = none ∧
    (start [.write 3 0x00001204] []).inputs = .write 3 0x00001204 :: [] ∧ 3 < 4 ∧
    decode (.command 0x00001204) = .ok (.wr8 0x12) := by decide

/-- The three phases: a frame, the packet in PKT, a response. -/
theorem wit_PhaseStepRunsItsForm :
    ((Instr.emaReadRequest 0 255).wellFormed = true ∧
      decode (.frame [0x01, 0x09, 0, 0, 0, 0, 0xFF, 0]) = .ok (.emaReadRequest 0 255)) ∧
    ((Instr.reportEmpty 7).wellFormed = true ∧
      decode (.packet (packetState [0x07]).pktBytes) = .ok (.reportEmpty 7)) ∧
    ((Instr.emaReadResponse 1 [3, 0, 0x5A, 0x5D]).wellFormed = true ∧
      (start [] [.returns [3, 0, 0x5A, 0x5D, 0x99]]).draw.1 = .returns [3, 0, 0x5A, 0x5D, 0x99] ∧
      decode (.response 1 [3, 0, 0x5A, 0x5D, 0x99]) = .ok (.emaReadResponse 1 [3, 0, 0x5A, 0x5D])) := by decide

/-- Each word of the table's right-hand side is met, at both ends of its operand's range. -/
theorem wit_CommandWordsAreExactlyTheTable :
    decode (.command 0x00000004) = .ok (.wr8 0) ∧ decode (.command 0x0000FF04) = .ok (.wr8 255) ∧
    decode (.command 0x00000020) = .ok (.qvalid 0) ∧ decode (.command 0x0000FF20) = .ok (.qvalid 255) ∧
    decode (.command 0x00000021) = .ok (.qcontact 0) ∧ decode (.command 0x0000FF21) = .ok (.qcontact 255) ∧
    decode (.command 0x00000022) = .ok (.qbutton 0) ∧ decode (.command 0x0000FF22) = .ok (.qbutton 255) := by decide

/-- The bounds of the forms that have one. -/
theorem wit_DecodeUndoesEncode : (Instr.emaWriteFrame 0xFFFFFFFF (List.replicate 255 0xFF)).wellFormed = true ∧
    (Instr.emaReadRequest 0xFFFFFFFF 255).wellFormed = true ∧
    (Instr.emaReadResponse 0 [2, 0, 2]).wellFormed = true ∧ (Instr.reportEmpty 0xFF).wellFormed = true := by
  refine ⟨?_, by decide, by decide, by decide⟩
  simp only [Instr.wellFormed, List.length_replicate]
  decide

theorem wit_FramesAreReadBackFromAStream : (List.replicate 255 (0xFF : Byte)).length ≤ 255 :=
  Nat.le_of_eq List.length_replicate

theorem wit_PacketsDecodeByTheirLayout :
    [0x06, 0x08, 0x09, 0x07].map (fun id : Byte => ((packetOf [id]).length, byteAt (packetOf [id]) 2)) =
      [(53, 0x06), (53, 0x08), (53, 0x09), (53, 0x07)] := by decide

theorem wit_PrologueRefusesByValueAndClearsFlags :
    ((start [.write 0 0x11] []).inflight = none ∧ (start [.write 0 0x11] []).inputs = .write 0 0x11 :: [] ∧
      decode (.command 0x11) = .error .unknownOp) ∧
    (Instr.emaWrite.isCommand = true ∧ countLegal .emaWrite { State.reset with count := 256 } = false) := by decide

/-- The boundary counts: 255 and 256 for EMA_WRITE, 65533 for EMA_READ. -/
theorem wit_CountIsIllegalInTwoCases :
    (countLegal .emaWrite { State.reset with count := 255 } = true ∧
      countLegal .emaWrite { State.reset with count := 256 } = false) ∧
    (countLegal .emaRead { State.reset with count := 255 } = true ∧
      254 < ({ State.reset with count := 255 } : State).count.toNat) ∧
    Config.dataCap < ({ State.reset with count := 65533 } : State).count.toNat := by
  refine ⟨by decide, by decide, ?_⟩
  have h := Config.dataCap_bounds.2
  exact Nat.lt_of_le_of_lt h (by decide)

/-- Both clauses, at the boundary COUNT. -/
theorem wit_EmaWriteSendsOneFrame :
    (({ start [] [.returns []] with count := 255 } : State).count.toNat ≤ 255 ∧
      ({ start [] [.returns []] with count := 255 } : State).draw.1 = .returns []) ∧
    255 < ({ State.reset with count := 256 } : State).count.toNat := by decide

theorem wit_SentFramesVerify : State.reset.count.toNat ≤ 255 ∧
    seen (exec .emaWrite (start [] [.returns []])) State.status = some 0 := by decide

theorem wit_EmaReadValidatesAndFillsData :
    ((reading 0 255 []).count.toNat ≤ Config.dataCap ∧ (reading 0 255 [2]).draw.1 = .returns [] ∧
      (reading 0 255 [2]).draw.2.draw.1 = .returns [2]) ∧
    Config.dataCap < (reading 0 65533 []).count.toNat :=
  ⟨⟨Config.dataCap_bounds.1, rfl, rfl⟩, Nat.lt_of_le_of_lt Config.dataCap_bounds.2 (by decide)⟩

/-- The presence bounds of the length and of the checksum: m = 1, 2 and m = c + 2, c + 3, for c = 1. -/
theorem wit_ValidatorComputesItsFields :
    [[3], [3, 0], [3, 0, 0x5A], [3, 0, 0x5A, 0x5D]].map (fun r =>
      ((emaReadCore 1 r).diag.lenPresent, (emaReadCore 1 r).diag.csumPresent, (emaReadCore 1 r).lenMismatch,
        (emaReadCore 1 r).csumMismatch)) =
      [(false, false, true, true), (true, false, true, true), (true, false, false, true),
        (true, true, false, false)] := by decide

theorem wit_GoodReadExactly : [2, 0, 2].length ≤ 0 + 3 := by decide

/-- S6, V-R5 -/
theorem wit_OneCorruptByteIsSeen : ([4, 0, 0x34, 0x12, 0x4A] : List Byte).length = 2 + 3 ∧
    (emaReadCore 2 [4, 0, 0x34, 0x12, 0x4A]).csumMismatch = false ∧ 2 < 2 + 2 ∧
    byteAt [4, 0, 0x34, 0x12, 0x4A] 2 ≠ 0x35 ∧
    (emaReadCore 2 [4, 0, 0x35, 0x12, 0x4A]).csumMismatch = true := by decide

/-- V-R18 -/
theorem wit_ReorderedPayloadIsNotSeen : ([0x34, 0x12] : List Byte).Perm [0x12, 0x34] := .swap _ _ _

/-- V-R6 -/
theorem wit_WrongLengthAloneSetsLenMismatch : ([5, 0, 0x34, 0x12, 0x4B] : List Byte).length = 2 + 3 ∧
    (byteAt [5, 0, 0x34, 0x12, 0x4B] 4).toNat =
      ((([5, 0, 0x34, 0x12, 0x4B] : List Byte).take 4).map BitVec.toNat).sum % 256 ∧
    (byteAt [5, 0, 0x34, 0x12, 0x4B] 0).toNat + 256 * (byteAt [5, 0, 0x34, 0x12, 0x4B] 1).toNat ≠ 4 := by decide

theorem wit_Rd8ReadsOneByte : (reading 0 0 [3, 0, 0x5A, 0x5D]).draw.1 = .returns [] ∧
    (reading 0 0 [3, 0, 0x5A, 0x5D]).draw.2.draw.1 = .returns [3, 0, 0x5A, 0x5D] := ⟨rfl, rfl⟩

theorem wit_Rd16ReadsTwoBytesLowFirst : (reading 0 0 [4, 0, 0x34, 0x12, 0x4A]).draw.1 = .returns [] ∧
    (reading 0 0 [4, 0, 0x34, 0x12, 0x4A]).draw.2.draw.1 = .returns [4, 0, 0x34, 0x12, 0x4A] := ⟨rfl, rfl⟩

/-- V-W1 and V-W2: both runs answer a next state. -/
theorem wit_Wr8SendsOneByteFrame : (start [] [.returns []]).draw.1 = .returns [] ∧
    (seen (exec (.wr8 0x55) (start [] [.returns []])) State.trace).isSome = true ∧
    (seen (exec .emaWrite { (start [] [.returns []]).writeByte 0x1000 0x55 with count := 1 })
      State.trace).isSome = true := by decide

theorem wit_BlockedTransportStopsEveryBusCommand :
    ((start [] [.neverReturns]).draw.1 = .neverReturns ∧ countLegal .emaWrite (start [] [.neverReturns]) = true ∧
      countLegal .emaRead (start [] [.neverReturns]) = true) ∧
    ((start [] [.returns [], .neverReturns]).draw.1 = .returns [] ∧
      (start [] [.returns [], .neverReturns]).draw.2.draw.1 = .neverReturns) := by decide

theorem wit_TransactionsUseTheDeviceAddress : (start [] [.returns []]).draw.1 = .returns [] := rfl

/-- A response longer than asked for, and an older response and an older frame in the trace. -/
theorem wit_EveryCallIsAFreshRoundTrip :
    (seen (exec .emaRead (reading 0 1 [])) State.status = some 3 ∧ countLegal .emaRead (reading 0 1 []) = true) ∧
    (reading 0 1 [3, 0, 1, 4, 9, 9]).draw.2.draw.1 = .returns [3, 0, 1, 4, 9, 9] ∧
    seen (exec .rd8 { reading 0 1 [3, 0, 1, 4, 9, 9] with trace := [.q 4 true [3, 0, 2, 5]] })
      (fun t => t.trace.drop 2) = some [.q 4 true [3, 0, 1, 4]] ∧
    seen (exec .rd16 (reading 0 1 [])) (fun t => t.trace.drop 1) = some [.q 5 true []] ∧
    seen (exec (.wr8 1) { reading 0 1 [] with trace := [.w (writeFrame 0 [2]) true] })
      (fun t => t.trace.drop 1) = some [.w [0, 9, 0, 0, 0, 0, 1, 0, 1, 11] true] := by decide

/-- The four forms, each with a packet of its kind, of another kind and of none. -/
theorem wit_DecodeClassifiesThePacket :
    [Instr.decodeAny, .decodeMouse, .decodeKeyboard, .decodeAbsolute].map (fun i =>
      [[0x06], [0x08], [0x09], [0x07]].map (fun p => seen (exec i (packetState p)) State.status)) =
    [[some 0, some 0, some 0, some 4], [some 0, some 8, some 8, some 8], [some 8, some 0, some 8, some 8],
      [some 8, some 8, some 0, some 8]] := by decide

theorem wit_MouseDeltasAreSigned : (packetState [0x06, 0, 0xFE]).pktByte 2 = 0x06 ∧
    (packetState [0x06, 0, 0xFE]).pktByte 4 = 0xFE ∧ (packetState [0x06, 0, 0x80]).pktByte 4 = 0x80 ∧
    (packetState [0x06, 0, 0x7F]).pktByte 4 = 0x7F := by decide

/-- V-D13: two states that differ outside PKT[2..29] alone. -/
theorem wit_DecodeIsAFunctionOfThePacket :
    (List.range 28).map (fun k => ((packetState [0x06, 1, 2, 3]).writeByte 0x800 0xFF).pktByte (2 + k)) =
      (List.range 28).map (fun k => (packetState [0x06, 1, 2, 3]).pktByte (2 + k)) ∧
    seen (exec .decodeAny ((packetState [0x06, 1, 2, 3]).writeByte 0x800 0xFF)) State.report =
      some (.mouse 1 2 3 0 0) := by decide

/-- The operands at both ends of 0..4 and past it. -/
theorem wit_QvalidAnswersPalmBits : seen (exec (.qvalid 4) (holding (reportA 0x02))) State.status = some 0x20 ∧
    seen (exec (.qvalid 5) (holding (reportA 0x02))) State.status = some 0 := by
  refine ⟨?_, by decide⟩
  change some (State.status (State.answer _ (palmValid 0x02))) = _
  rw [test_qvalid_masks.1]
  rfl

theorem wit_ContactAndValidityAreIndependent : (4 : Byte).toNat < 5 := by decide

theorem wit_QueriesGiveZeroOffTheirVariants :
    (∃ m k, (holding (.keyboard 0xFF #v[4, 5, 6, 7, 8, 9])).report = .keyboard m k) ∧
    (holding .empty).report = .empty := ⟨⟨_, _, rfl⟩, rfl⟩

theorem wit_QueriesWriteOnlyTheirResult : Instr.qbutton 0xFF = .qvalid 0xFF ∨ Instr.qbutton 0xFF = .qcontact 0xFF ∨
    Instr.qbutton 0xFF = .qbutton 0xFF := by decide

theorem wit_WriteFrameFormSendsWithStop : (List.replicate 255 (0 : Byte)).length ≤ 255 ∧
    (start [] [.returns []]).draw.1 = .returns [] := ⟨Nat.le_of_eq List.length_replicate, rfl⟩

theorem wit_ReadRequestFormHoldsTheBus : (start [] [.returns []]).draw.1 = .returns [] := rfl

/-- The last byte inside the destination and the first outside it. -/
theorem wit_ReadResponseFormFillsData : (255 : Half).toNat ≤ Config.dataCap ∧ 254 < (255 : Half).toNat ∧
    0x1000 + (255 : Half).toNat ≤ 0x10FF := ⟨Config.dataCap_bounds.1, by decide, by decide⟩

theorem wit_CommandsAreTheirPhasesInOrder : State.reset.inflight = none ∧ State.reset.count.toNat ≤ 255 ∧
    State.reset.count.toNat ≤ Config.dataCap := ⟨rfl, by decide, Nat.zero_le _⟩

/-- A next state that differs in the register, for each clause. -/
theorem wit_EachRegisterHasItsWriters :
    Instr.rd8.isCommand = true ∧
    seen (exec .rd8 (reading 0 0 [3, 0, 0x5A, 0x5D])) (fun t => (t.value == 0, t.diag == Diag.reset, t.trace == [])) =
      some (false, false, false) ∧
    seen (exec .decodeAny (packetState [0x06])) (fun t => t.report == .empty) = some false ∧
    seen (exec .emaRead { reading 0 1 [3, 0, 0x5A, 0x5D] with mem := [(0x1000, 0)] }) (fun t => t.readByte 0x1000) =
      some 0x5A := by decide

theorem wit_TraceOnlyGrows : seen (step (start [.write 0 0x00000104] [.returns []])) (fun t => t.trace.length) = some 1 ∧
    seen (step { start [.reset] [] with trace := [.w [] true] }) State.trace = some [] := by decide

/-- Each flag is set by some command. -/
theorem wit_FlagsExcludeEachOther :
    seen (exec .emaWrite { State.reset with count := 256 }) (fun t => t.flag .cmdErr) = some true ∧
    seen (exec .decodeAny (packetState [0x07])) (fun t => t.flag .unrecognized) = some true ∧
    seen (exec .decodeMouse (packetState [0x07])) (fun t => t.flag .decodeFail) = some true ∧
    seen (exec (.qcontact 4) (holding (reportA 0x02))) (fun t => t.flag .qresult) = some true := by decide

/-- A safe state other than reset's, whose step is a whole read. -/
theorem wit_EveryStepKeepsSafeStates :
    SafeState { start [.write 0 0x00000003] [.returns [], .returns [3, 0, 0x5A, 0x5D]] with
      mem := [(0x800, 1), (0x1000, 2)], status := 3, trace := [.w (writeFrame 0 [1]) true] } ∧
    seen (step { start [.write 0 0x00000003] [.returns [], .returns [3, 0, 0x5A, 0x5D]] with
      mem := [(0x800, 1), (0x1000, 2)], status := 3, trace := [.w (writeFrame 0 [1]) true] })
      (fun t => t.trace.length) = some 3 :=
  ⟨⟨rfl, rfl, by decide, by decide, by decide, by decide⟩, by decide⟩

/-- A reachable state, one step after reset, and a reachable one whose step is refused. -/
theorem wit_ReachableStatesAreSafe :
    Reachable { start [] [] with addr := 5 } ∧
    step (start [.resetInCommand] []) = .refused .resetDuringCommand :=
  ⟨.next (start [.write 8 5] []) _ (.start _ _) rfl, rfl⟩

end Sys2Proof.Tests
end

/-! What the host reads at the registers and after reset, and that its writes of REPORT are ignored (spec 10_state.md
R23 to R25, R33, R36). -/

namespace Sys2Proof.Machine

/-- CMD's word holds no register and no buffer byte, so it reads 0 (R23). -/
theorem hostReadWord_cmd (s : State) (o : Nat) (dr : Bool) (h : o < 4) : hostReadWord s o dr = 0 := by
  have hw : wordOffset o = 0 := by rw [wordOffset_eq]; omega
  have hnone : ∀ j, j < 4 → inBuffer (0 + j) = false := fun j hj => (inBuffer_false_iff _).2 (by omega)
  simpa [hostReadWord, hw] using windowWord_none s 0 hnone

@[simp] theorem hostReadWord_status (s : State) (dr : Bool) : hostReadWord s 0x004 dr = statusWord s dr := rfl

/-- A buffer byte that nothing has written since reset reads as its free value (R36, U1). -/
theorem State.readByte_unwritten (s : State) (a : Nat) (ha : inBuffer a = true)
    (hm : Memory.get? s.mem a = none) : s.readByte a = Config.freeByte s.epoch a := by
  simp [State.readByte, ha, hm]

theorem hostReadWord_report (s : State) (o : Nat) (dr : Bool) (h1 : 0x100 ≤ o) (h2 : o < 0x148) :
    hostReadWord s o dr = reportWord s.report (wordOffset o) := by
  have hw := wordOffset_eq o
  have hlo : 0x100 ≤ wordOffset o := by omega
  have hhi : wordOffset o < 0x148 := by omega
  simp only [hostReadWord]
  rw [if_neg (by omega), if_neg (by omega), if_neg (by omega), if_neg (by omega), if_neg (by omega),
    if_neg (by omega), if_neg (by omega), if_pos ⟨hlo, hhi⟩]

/-- No register that stores and no buffer byte lies among the report registers: a write there is ignored (R33). -/
theorem hostWriteWord_report (s : State) (o : Nat) (w : Word) (h1 : 0x100 ≤ o) (h2 : o < 0x148) :
    hostWriteWord s o w = s := by
  have hw := wordOffset_eq o
  simp only [hostWriteWord]
  rw [if_neg (by omega), if_neg (by omega)]
  exact writeWindowWord_none s _ w fun j hj => (inBuffer_false_iff _).2 (by omega)

/-! The report registers one by one (R33). -/

@[simp] theorem hostReadWord_rptTag (s : State) (dr : Bool) :
    hostReadWord s 0x100 dr = (rptTag s.report).setWidth 32 := rfl

@[simp] theorem hostReadWord_rptButtons (s : State) (dr : Bool) :
    hostReadWord s 0x104 dr = (buttonsOf s.report).setWidth 32 := rfl

@[simp] theorem hostReadWord_rptMouse (s : State) (dr : Bool) : hostReadWord s 0x108 dr = rptMouse s.report := rfl

@[simp] theorem hostReadWord_rptKbdMod (s : State) (dr : Bool) :
    hostReadWord s 0x10C dr = (rptKbdMod s.report).setWidth 32 := rfl

@[simp] theorem hostReadWord_rptKbdKeysLo (s : State) (dr : Bool) :
    hostReadWord s 0x110 dr = rptKbdKeysLo s.report := rfl

@[simp] theorem hostReadWord_rptKbdKeysHi (s : State) (dr : Bool) :
    hostReadWord s 0x114 dr = rptKbdKeysHi s.report := rfl

@[simp] theorem hostReadWord_rptContact (s : State) (dr : Bool) :
    hostReadWord s 0x118 dr = (rptContact s.report).setWidth 32 := rfl

theorem reportWord_fingers (r : Report) (b : Nat) (h1 : 0x120 ≤ b) (h2 : b < 0x148) :
    reportWord r b =
      if (b - 0x120) % 8 = 0 then rptFingerXY r ((b - 0x120) / 8) else rptFingerPalm r ((b - 0x120) / 8) := by
  simp only [reportWord]
  rw [if_neg (by omega), if_neg (by omega), if_neg (by omega), if_neg (by omega), if_neg (by omega),
    if_neg (by omega), if_neg (by omega), if_pos ⟨h1, h2⟩]

theorem hostReadWord_rptFingerXY (s : State) (i : Nat) (dr : Bool) (hi : i < 5) :
    hostReadWord s (0x120 + 8 * i) dr = rptFingerXY s.report i := by
  have hw : wordOffset (0x120 + 8 * i) = 0x120 + 8 * i := by rw [wordOffset_eq]; omega
  rw [hostReadWord_report _ _ _ (by omega) (by omega), hw, reportWord_fingers _ _ (by omega) (by omega),
    if_pos (by omega), show (0x120 + 8 * i - 0x120) / 8 = i by omega]

theorem hostReadWord_rptFingerPalm (s : State) (i : Nat) (dr : Bool) (hi : i < 5) :
    hostReadWord s (0x124 + 8 * i) dr = rptFingerPalm s.report i := by
  have hw : wordOffset (0x124 + 8 * i) = 0x124 + 8 * i := by rw [wordOffset_eq]; omega
  rw [hostReadWord_report _ _ _ (by omega) (by omega), hw, reportWord_fingers _ _ (by omega) (by omega),
    if_neg (by omega), show (0x124 + 8 * i - 0x120) / 8 = i by omega]

theorem rptFinger_absolute (c : Byte) (f : Vector FingerData 5) (b : Byte) (i : Nat) (hi : i < 5) :
    rptFinger (.absolute c f b) i = f[i] := by
  simp [rptFinger, fingerAt, hi]

theorem setWidth32_toNat (v : Byte) : (v.setWidth 32).toNat = v.toNat := BitVec.toNat_setWidth_of_le (by decide)

@[simp] theorem wordOfHalves_zero : wordOfHalves 0#16 0#16 = 0#32 := by decide

/-! Where the registers of the current variant end, every later one reads 0 (R33). -/

/-- From RPT_CONTACT on only an Absolute report has fields. -/
theorem reportWord_fingers_zero (r : Report) (b : Nat) (hc : rptContact r = 0)
    (hf : ∀ i, rptFinger r i = { x := 0, y := 0, palmBits := 0 }) (h : 0x118 ≤ b) : reportWord r b = 0 := by
  unfold reportWord
  rw [if_neg (by omega), if_neg (by omega), if_neg (by omega), if_neg (by omega), if_neg (by omega),
    if_neg (by omega)]
  simp [rptFingerXY, rptFingerPalm, hc, hf]

theorem reportWord_empty (b : Nat) : reportWord .empty b = 0 := by
  by_cases h : 0x118 ≤ b
  · exact reportWord_fingers_zero _ _ rfl (fun _ => rfl) h
  · unfold reportWord
    rw [if_neg (show b ≠ 0x118 by omega), if_neg (show ¬(0x120 ≤ b ∧ b < 0x148) by omega)]
    split_ifs <;> rfl

theorem reportWord_mouse_zero (c x y scroll pan : Byte) (b : Nat) (h : 0x10C ≤ b) :
    reportWord (.mouse c x y scroll pan) b = 0 := by
  by_cases h' : 0x118 ≤ b
  · exact reportWord_fingers_zero _ _ rfl (fun _ => rfl) h'
  · unfold reportWord
    rw [if_neg (by omega), if_neg (by omega), if_neg (by omega), if_neg (show b ≠ 0x118 by omega),
      if_neg (show ¬(0x120 ≤ b ∧ b < 0x148) by omega)]
    split_ifs <;> rfl

theorem reportWord_keyboard_zero (m : Byte) (k : Vector Byte 6) (b : Nat) (h : 0x118 ≤ b) :
    reportWord (.keyboard m k) b = 0 :=
  reportWord_fingers_zero _ _ rfl (fun _ => rfl) h

/-- An Absolute report has fields on both sides of the mouse and keyboard registers, and none in them. -/
theorem reportWord_absolute_zero (c : Byte) (f : Vector FingerData 5) (d : Byte) (b : Nat)
    (h1 : 0x108 ≤ b) (h2 : b < 0x118) : reportWord (.absolute c f d) b = 0 := by
  unfold reportWord
  rw [if_neg (by omega), if_neg (by omega), if_neg (show b ≠ 0x118 by omega),
    if_neg (show ¬(0x120 ≤ b ∧ b < 0x148) by omega)]
  split_ifs <;> rfl

/-- Settles O1: with nothing written yet, every buffer byte is its free value. -/
theorem resetGivesTheSpecsValues : Obligations.ResetGivesTheSpecsValues := by
  refine ⟨rfl, rfl, rfl, rfl, rfl, rfl, rfl, rfl, rfl, rfl, rfl, rfl, rfl, rfl, fun dr => ?_, fun a ha => ?_⟩
  · rw [hostReadWord_status, statusWord_bit _ _ _ (by decide)]
    rfl
  · exact State.readByte_unwritten _ a ha rfl

/-- Settles O3, by the bits of STATUS as the host reads it. -/
theorem statusReadShowsFlagsAndLiveLine : Obligations.StatusReadShowsFlagsAndLiveLine := by
  intro s dr i hi
  rw [hostReadWord_status]
  exact statusWord_bit s dr i hi

/-- Settles O12: the step runs the decoded command, and CMD's word is not stored anywhere. -/
theorem commandWordStepRunsItsCommand : Obligations.CommandWordStepRunsItsCommand :=
  fun s o w rest i dr hp hi ho hd => ⟨step_command s o w rest i hp hi ho hd, hostReadWord_cmd s o dr ho⟩

/-- Settles O5: by the variant of REPORT, its own registers field by field, the others from where they begin. -/
theorem hostReadsReportRegisters : Obligations.HostReadsReportRegisters := by
  intro s dr
  refine ⟨?_, hostWriteWord_report s⟩
  have read := hostReadWord_report s
  cases hr : s.report with
  | empty =>
    intro o h1 h2
    rw [read o dr h1 h2, hr, reportWord_empty]
  | mouse b x y scroll pan =>
    refine ⟨by simp [hr, rptTag], ?_, by simp [hr, rptMouse, le32_toNat], fun o h1 h2 => ?_⟩
    · rw [hostReadWord_rptButtons, hr, buttonsOf, setWidth32_toNat]
    · have hw := wordOffset_eq o
      rw [read o dr (by omega) h2, hr, reportWord_mouse_zero _ _ _ _ _ _ (by omega)]
  | keyboard m k =>
    refine ⟨by simp [hr, rptTag], by simp [hr, buttonsOf], by simp [hr, rptMouse], ?_,
      by simp [hr, rptKbdKeysLo, le32_toNat], by simp [hr, rptKbdKeysHi, le32_toNat], fun o h1 h2 => ?_⟩
    · rw [hostReadWord_rptKbdMod, hr, rptKbdMod, setWidth32_toNat]
    · have hw := wordOffset_eq o
      rw [read o dr (by omega) h2, hr, reportWord_keyboard_zero _ _ _ (by omega)]
  | absolute c f b =>
    refine ⟨by simp [hr, rptTag], ?_, fun o h1 h2 => ?_, ?_, fun i => ⟨?_, ?_⟩⟩
    · rw [hostReadWord_rptButtons, hr, buttonsOf, setWidth32_toNat]
    · have hw := wordOffset_eq o
      rw [read o dr (by omega) (by omega), hr, reportWord_absolute_zero _ _ _ _ (by omega) (by omega)]
    · rw [hostReadWord_rptContact, hr, rptContact, setWidth32_toNat]
    · rw [hostReadWord_rptFingerXY s i dr i.isLt, hr, rptFingerXY, rptFinger_absolute _ _ _ _ i.isLt,
        wordOfHalves_toNat]
    · rw [hostReadWord_rptFingerPalm s i dr i.isLt, hr, rptFingerPalm, rptFinger_absolute _ _ _ _ i.isLt,
        setWidth32_toNat]

end Sys2Proof.Machine

/-! What a step can be, said once, and from it how TRACE moves (spec 10_state.md R35). -/

namespace Sys2Proof.Machine

/-- A step that answers a next state ran an instruction or ended with that state. -/
theorem step_eq_next (s t : State) (h : step s = .next t) :
    (∃ i u, fetch s = .run i u ∧ exec i u = .next t) ∨ fetch s = .done (.next t) := by
  unfold step at h
  cases hf : fetch s with
  | run i u => exact .inl ⟨i, u, rfl, by rwa [hf] at h⟩
  | done o => exact .inr (congrArg Fetched.done (by rwa [hf] at h))

theorem fetchForm_eq_run (e : Encoded) (s u : State) (i : Instr) (h : fetchForm e s = .run i u) : u = s := by
  unfold fetchForm at h
  split at h
  · split at h
    · cases h
      rfl
    · cases h
  · cases h

theorem fetchForm_ne_next (e : Encoded) (s t : State) : fetchForm e s ≠ .done (.next t) := by
  unfold fetchForm
  split
  · split <;> simp
  · simp

/-- A phase runs its form from the state, or from the state after the draw of its response. -/
theorem fetchPhase_eq_run (p : Phase) (s u : State) (i : Instr) (h : fetchPhase p s = .run i u) :
    u = s ∨ u = s.draw.2 := by
  cases p with
  | frame bytes => exact .inl (fetchForm_eq_run (.frame bytes) _ _ _ h)
  | classify => exact .inl (fetchForm_eq_run (.packet s.pktBytes) _ _ _ h)
  | awaitResponse count =>
    simp only [fetchPhase] at h
    split at h
    next resp v hd => exact .inr (by rw [hd]; exact fetchForm_eq_run _ _ _ _ h)
    next => cases h

theorem fetchPhase_ne_next (p : Phase) (s t : State) : fetchPhase p s ≠ .done (.next t) := by
  cases p with
  | frame bytes => exact fetchForm_ne_next (.frame bytes) _ _
  | classify => exact fetchForm_ne_next (.packet s.pktBytes) _ _
  | awaitResponse count =>
    simp only [fetchPhase]
    split
    · exact fetchForm_ne_next _ _ _
    · simp

/-- Of the host's inputs only a write of CMD runs an instruction, from the state as it is. -/
theorem fetchInput_eq_run (c : Input) (s u : State) (i : Instr) (h : fetchInput c s = .run i u) : u = s := by
  cases c with
  | write o w =>
    simp only [fetchInput, fetchWrite] at h
    split at h
    · cases h
    · split at h
      · split at h
        · cases h
          rfl
        · cases h
      · cases h
  | read o dr => cases h
  | reset =>
    simp only [fetchInput, fetchReset] at h
    split at h <;> cases h
  | resetInCommand => cases h

/-- The host inputs that end a step without a command: an Illegal word (R84), a store (R55), a read (R55), a reset
(R240). -/
theorem fetchInput_eq_next (c : Input) (s t : State) (h : fetchInput c s = .done (.next t)) :
    t = { s with status := 0b010000 } ∨
    (∃ o w, c = .write o w ∧ t = hostWriteWord s o w) ∨
    (∃ o dr, c = .read o dr ∧
      t = { s with hostReads := s.hostReads ++ [{ offset := o, value := hostReadWord s o dr }] }) ∨
    (c = .reset ∧ s.busHeld = false ∧ t = s.applyReset) := by
  cases c with
  | write o w =>
    simp only [fetchInput, fetchWrite] at h
    split at h
    · cases h
    · split at h
      · split at h
        · cases h
        · rw [commandError_eq] at h
          cases h
          exact .inl rfl
      · cases h
        exact .inr (.inl ⟨o, w, rfl, rfl⟩)
  | read o dr =>
    simp only [fetchInput, hostRead] at h
    split at h
    · cases h
      exact .inr (.inr (.inl ⟨o, dr, rfl, rfl⟩))
    · cases h
  | reset =>
    simp only [fetchInput, fetchReset] at h
    split at h
    next => cases h
    next hb =>
      cases h
      exact .inr (.inr (.inr ⟨rfl, by simpa using hb, rfl⟩))
  | resetInCommand => cases h

/-- What a fetch moves before the instruction runs: the host side's and the transport's lists and the phase. -/
theorem fetch_eq_run (s u : State) (i : Instr) (h : fetch s = .run i u) :
    u = { s with inflight := u.inflight, inputs := u.inputs, replies := u.replies, draws := u.draws } := by
  unfold fetch at h
  split at h
  next p hp =>
    rcases fetchPhase_eq_run _ _ _ _ h with rfl | rfl
    · rfl
    · rw [State.draw_state]
  next =>
    split at h
    next c rest hc => rw [fetchInput_eq_run _ _ _ _ h]
    next => cases h

/-- A step that runs no instruction is idle or takes the host's next input. -/
theorem fetch_eq_next (s t : State) (h : fetch s = .done (.next t)) :
    t = s ∨ ∃ c rest, s.inputs = c :: rest ∧ fetchInput c { s with inputs := rest } = .done (.next t) := by
  unfold fetch at h
  split at h
  next p hp => exact absurd h (fetchPhase_ne_next _ _ _)
  next =>
    split at h
    next c rest hc => exact .inr ⟨c, rest, hc, h⟩
    next =>
      cases h
      exact .inl rfl

@[simp] theorem hostWriteWord_trace (s : State) (o : Nat) (w : Word) : (hostWriteWord s o w).trace = s.trace := by
  simp only [hostWriteWord]
  split
  · rfl
  · split
    · rfl
    · exact State.writeBytes_trace _ _ _

@[simp] theorem State.storePayload_trace (s : State) (r : ReadResult) : (s.storePayload r).trace = s.trace :=
  State.writeBytes_trace _ _ _

@[simp] theorem decodeReport_trace (e : Byte) (s : State) : (decodeReport e s).trace = s.trace := by
  rw [decodeReport_state]

theorem busWrite_trace (bytes : List Byte) (stop : Bool) (s t : State) (h : busWrite bytes stop s = .next t) :
    s.trace <+: t.trace := by
  rw [(busWrite_eq_next _ _ _ _ h).2]
  exact List.prefix_append _ _

/-- A command leaves TRACE as it is, or appends one write, or a request and its response. -/
theorem exec_command_trace (i : Instr) (s t : State) (hc : i.isCommand = true) (h : exec i s = .next t) :
    s.trace <+: t.trace := by
  rcases command_cases i s t hc h with ⟨-, -, rfl⟩ | ⟨p, -, -, rfl⟩ | ⟨count, store, resp, hi, -, -, rfl⟩ |
    ⟨e, -, rfl⟩ | ⟨b, -, rfl⟩
  · exact List.prefix_rfl
  · exact List.prefix_append _ _
  · rcases hi with ⟨-, -, rfl⟩ | ⟨-, -, rfl⟩ | ⟨-, -, rfl⟩ <;> simp
  · simp
  · simp

/-- Every instruction appends to TRACE and removes nothing from it. -/
theorem exec_trace (i : Instr) (s t : State) (h : exec i s = .next t) : s.trace <+: t.trace := by
  by_cases hc : i.isCommand = true
  · exact exec_command_trace i s t hc h
  cases i with
  | emaWriteFrame a payload => exact busWrite_trace _ _ _ _ h
  | emaReadRequest a count =>
    obtain ⟨u, hu, hut⟩ := (andThen_eq_next _ _ _).1 h
    have hkeep := busWrite_trace _ _ _ _ hu
    cases hut
    exact hkeep
  | emaReadResponse count bytes =>
    cases h
    simp
  | reportMouse | reportKeyboard | reportAbsolute | reportEmpty =>
    cases h
    exact List.prefix_rfl
  | _ => exact absurd rfl hc

/-- A host input that runs no command leaves TRACE as it is, unless it is a reset. -/
theorem fetchInput_trace (c : Input) (s t : State) (h : fetchInput c s = .done (.next t)) :
    t.trace = s.trace ∨ (c = .reset ∧ t.trace = []) := by
  rcases fetchInput_eq_next c s t h with rfl | ⟨o, w, -, rfl⟩ | ⟨o, dr, -, rfl⟩ | ⟨rfl, -, rfl⟩
  · exact .inl rfl
  · exact .inl (hostWriteWord_trace s o w)
  · exact .inl rfl
  · exact .inr ⟨rfl, rfl⟩

theorem step_trace (s t : State) (h : step s = .next t) :
    s.trace <+: t.trace ∨ (s.inputs.head? = some .reset ∧ t.trace = []) := by
  rcases step_eq_next s t h with ⟨i, u, hf, hx⟩ | hf
  · have hu : u.trace = s.trace := by rw [fetch_eq_run s u i hf]
    exact .inl (hu ▸ exec_trace i u t hx)
  · rcases fetch_eq_next s t hf with rfl | ⟨c, rest, hc, hd⟩
    · exact .inl List.prefix_rfl
    · rcases fetchInput_trace _ _ _ hd with ht | ⟨rfl, ht⟩
      · exact .inl (by rw [ht])
      · exact .inr ⟨by rw [hc]; rfl, ht⟩

/-- No host read looks at TRACE (R35). -/
theorem hostReadWord_setTrace (s : State) (trace : List Event) (o : Nat) (dr : Bool) :
    hostReadWord { s with trace := trace } o dr = hostReadWord s o dr := rfl

/-- Settles O50, from what a step can be. -/
theorem traceOnlyGrows : Obligations.TraceOnlyGrows := by
  refine ⟨fun s t h => ?_, hostReadWord_setTrace⟩
  rcases step_trace s t h with ⟨new, hnew⟩ | hreset
  · exact .inl ⟨new, hnew.symm⟩
  · exact .inr hreset

end Sys2Proof.Machine

/-! The window words of the host space (spec 20_memory.md R53), and the transactions every read and every WR8 issues
anew (20_memory.md R64; 41_register_access.md R145). -/

namespace Sys2Proof.Machine

/-- Past the registers the host reads window words (R52, R53). -/
theorem hostReadWord_window (s : State) (o : Nat) (dr : Bool) (h : 0x148 ≤ o) :
    hostReadWord s o dr = windowWord s (wordOffset o) := by
  have hw := wordOffset_eq o
  simp only [hostReadWord]
  rw [if_neg (by omega), if_neg (by omega), if_neg (by omega), if_neg (by omega), if_neg (by omega),
    if_neg (by omega), if_neg (by omega), if_neg (by omega)]

/-- Past COUNT no register stores a host write: it goes to the window word, if there is one (R52, R53). -/
theorem hostWriteWord_window (s : State) (o : Nat) (w : Word) (h : 0x010 ≤ o) :
    hostWriteWord s o w = writeWindowWord s (wordOffset o) w := by
  have hw := wordOffset_eq o
  simp only [hostWriteWord]
  rw [if_neg (by omega), if_neg (by omega)]

theorem wordOffset_of_aligned {b : Nat} (h : b % 4 = 0) : wordOffset b = b := by
  rw [wordOffset_eq, h, Nat.sub_zero]

theorem windowWord_toNat (s : State) (b : Nat) :
    (windowWord s b).toNat = (s.readByte b).toNat + 0x100 * (s.readByte (b + 1)).toNat +
      0x10000 * (s.readByte (b + 2)).toNat + 0x1000000 * (s.readByte (b + 3)).toNat :=
  le32_toNat _ _ _ _

/-- Byte `j` of a word is its digit `j` to the base 256 (R10). -/
theorem le4Bytes_getElem (w : Word) (j : Nat) (h : j < (le4Bytes w).length) :
    (le4Bytes w)[j] = BitVec.ofNat 8 (w.toNat / 256 ^ j) := by
  have hbyte : (le4Bytes w)[j] = w.extractLsb' (8 * j) 8 := by
    match j, h with
    | 0, _ | 1, _ | 2, _ | 3, _ => rfl
  rw [hbyte, extractByte_eq_ofNat, Nat.pow_mul]

theorem readByte_writeWindowWord_inside (s : State) (b : Nat) (w : Word) (j : Nat) (hj : j < 4)
    (hb : inBuffer (b + j) = true) :
    (writeWindowWord s b w).readByte (b + j) = BitVec.ofNat 8 (w.toNat / 256 ^ j) :=
  (State.readByte_writeBytes_inside (le4Bytes w) s b j hj hb).trans (le4Bytes_getElem w j hj)

theorem readByte_writeWindowWord_outside (s : State) (b : Nat) (w : Word) (a : Nat) (h : a < b ∨ b + 4 ≤ a) :
    (writeWindowWord s b w).readByte a = s.readByte a :=
  State.readByte_writeBytes_outside (le4Bytes w) s b a h

/-- The buffer bytes by their index in PKT and in DATA (R28, R29, R53). -/
theorem inBuffer_iff_exists (a : Nat) : inBuffer a = true ↔
    (∃ k, k < 53 ∧ a = 0x800 + k) ∨ (∃ k, k < Config.dataCap ∧ a = 0x1000 + k) := by
  constructor
  · intro h
    rcases (inBuffer_iff a).1 h with ⟨h1, h2⟩ | ⟨h1, h2⟩
    · obtain ⟨k, rfl⟩ := Nat.exists_eq_add_of_le h1
      exact .inl ⟨k, Nat.lt_of_add_lt_add_left h2, rfl⟩
    · obtain ⟨k, rfl⟩ := Nat.exists_eq_add_of_le h1
      exact .inr ⟨k, Nat.lt_of_add_lt_add_left h2, rfl⟩
  · rintro (⟨k, hk, rfl⟩ | ⟨k, hk, rfl⟩)
    · exact inBuffer_pkt hk
    · exact (inBuffer_data k).2 hk

/-- Settles O8: from 0x800 on a host access reaches a window word, whose bytes are read and written one by one. -/
theorem windowWordsHoldFourBytes : Obligations.WindowWordsHoldFourBytes := by
  refine ⟨inBuffer_iff_exists, State.readByte_outside, fun s b w hb hlo => ?_⟩
  have hread : ∀ dr, hostReadWord s b dr = windowWord s b := fun dr => by
    rw [hostReadWord_window s b dr (by omega), wordOffset_of_aligned hb]
  have hwrite : hostWriteWord s b w = writeWindowWord s b w := by
    rw [hostWriteWord_window s b w (by omega), wordOffset_of_aligned hb]
  rw [hwrite]
  refine ⟨fun dr => ?_, readByte_writeWindowWord_inside s b w, readByte_writeWindowWord_outside s b w,
    State.writeBytes_state (le4Bytes w) s b⟩
  rw [hread dr, windowWord_toNat]

theorem readRequest_eq_preambleBytes (a : Word) (c : Half) : readRequest a c = preambleBytes 0x01 a c :=
  preamble_eq dirRead a c

/-- After the prologue a read appends its own request and the response its second transport call returns,
provided that its destination is not TRACE (R64, R105 to R107). -/
theorem readTransaction_trace (count : Half) (store : State → ReadResult → State) (s t : State)
    (hstore : ∀ u r, (store u r).trace = u.trace) (h : readTransaction count store s.clearFlags = .next t) :
    ∃ resp, s.draw.2.draw.1 = .returns resp ∧
      t.trace = s.trace ++ [.w (preambleBytes 0x01 s.addr count) false,
        .q (count.toNat + 3) true (resp.take (count.toNat + 3))] := by
  obtain ⟨resp, hresp, rfl⟩ := readTransaction_next count store s t h
  refine ⟨resp, hresp, ?_⟩
  rw [hstore, State.recordResponse_trace, readRequest_eq_preambleBytes, List.append_assoc]
  rfl

/-- After the prologue a write appends its own frame (R57, R71). -/
theorem sendWriteFrame_trace (a : Word) (p : List Byte) (s t : State)
    (h : sendWriteFrame a p s.clearFlags = .next t) : t.trace = s.trace ++ [.w (writeFrame a p) true] := by
  rw [sendWriteFrame_next a p s t h]

/-- Settles O34: behind the prologue each of the four commands is its own transaction. -/
theorem everyCallIsAFreshRoundTrip : Obligations.EveryCallIsAFreshRoundTrip := by
  refine fun s t i h hl => ⟨fun c hc => ?_, fun v hv => ?_⟩
  · rcases hc with ⟨rfl, rfl⟩ | ⟨rfl, rfl⟩ | ⟨rfl, rfl⟩
    · exact readTransaction_trace s.count _ s t State.storePayload_trace
        ((withPrologue_legal .emaRead _ s hl).symm.trans h)
    · exact readTransaction_trace 1 _ s t State.storeValue8_trace
        ((withPrologue_legal .rd8 _ s hl).symm.trans h)
    · exact readTransaction_trace 2 _ s t State.storeValue16_trace
        ((withPrologue_legal .rd16 _ s hl).symm.trans h)
  · subst hv
    exact sendWriteFrame_trace s.addr [v] s t ((withPrologue_legal (.wr8 v) _ s hl).symm.trans h)

end Sys2Proof.Machine

/-! The command map read in both directions, and the packet layouts (spec 30_encoding.md R76 to R83). -/

namespace Sys2Proof

/-- Every row of the command map names its OP and ARG8 (R83), so a word that decodes is the word of its command. -/
theorem encode_of_decodeCommand (w : Word) (i : Instr) (h : decodeCommand w = .ok i) : encode i = .command w := by
  by_cases hr : w.extractLsb' 16 16 = 0
  · rw [← commandWord_of_fields w hr]
    rw [decodeCommand, if_neg (not_not_intro hr)] at h
    generalize w.extractLsb' 0 8 = op, w.extractLsb' 8 8 = arg at h ⊢
    -- the map becomes a disjunction, with one alternative for each row that names a command
    simp only [whenArgZero, ↓ite_eq_iff, Except.ok.injEq, reduceCtorEq, and_false, or_false] at h
    casesm* _ ∨ _, _ ∧ _
    all_goals
      subst_vars
      rfl
  · rw [decodeCommand, if_pos hr] at h
    cases h

/-- The word of a command decodes to it, whatever its ARG8 (R83). -/
theorem decodeCommand_of_encode (i : Instr) (w : Word) (h : encode i = .command w) : decodeCommand w = .ok i := by
  cases i with
  | emaWriteFrame | emaReadRequest | emaReadResponse | reportMouse | reportKeyboard | reportAbsolute
  | reportEmpty => cases h
  | _ =>
    cases h
    rw [decodeCommand, commandWord_op, commandWord_arg, commandWord_reserved]
    rfl

theorem decode_command_iff (w : Word) (i : Instr) : decode (.command w) = .ok i ↔ encode i = .command w :=
  ⟨encode_of_decodeCommand w i, decodeCommand_of_encode i w⟩

theorem command_eq_command_iff (v w : Word) : Encoded.command v = .command w ↔ w = v := by
  rw [Encoded.command.injEq, eq_comm]

theorem commandWord_eq_command_iff (op arg : Byte) (w : Word) :
    Encoded.command (commandWord op arg) = .command w ↔ w.toNat = op.toNat + 256 * arg.toNat := by
  rw [command_eq_command_iff, ← BitVec.toNat_inj, commandWord_toNat]

/-- Settles O14: a word decodes to `i` exactly when it is the encoding of `i`, which is the table row by row. -/
theorem commandWordsAreExactlyTheTable : Obligations.CommandWordsAreExactlyTheTable := by
  intro w i
  rw [decode_command_iff]
  cases i with
  | emaWrite => exact command_eq_command_iff 0x00000001 w
  | emaRead => exact command_eq_command_iff 0x00000002 w
  | rd8 => exact command_eq_command_iff 0x00000003 w
  | wr8 v => exact commandWord_eq_command_iff 0x04 v w
  | rd16 => exact command_eq_command_iff 0x00000005 w
  | decodeAny => exact command_eq_command_iff 0x00000010 w
  | decodeMouse => exact command_eq_command_iff 0x00000610 w
  | decodeKeyboard => exact command_eq_command_iff 0x00000810 w
  | decodeAbsolute => exact command_eq_command_iff 0x00000910 w
  | qvalid n => exact commandWord_eq_command_iff 0x20 n w
  | qcontact n => exact commandWord_eq_command_iff 0x21 n w
  | qbutton m => exact commandWord_eq_command_iff 0x22 m w
  | emaWriteFrame | emaReadRequest | emaReadResponse | reportMouse | reportKeyboard | reportAbsolute
  | reportEmpty => exact ⟨nofun, nofun⟩

/-- Inside a list, `byteAt` is its byte. -/
theorem getElem_eq_byteAt (p : List Byte) (k : Nat) (h : k < p.length) : p[k] = byteAt p k := by
  simp [byteAt, h]

theorem decode_packet (p : List Byte) (h : p.length = 53) :
    decode (.packet p) = .ok (packetInstr p[2] (classifyPacket (byteAt p))) := by
  rw [decode, decodePacket, if_pos h, getElem_eq_byteAt]

theorem classifyPacket_mouse (p : Nat → Byte) (h : p 2 = 0x06) :
    classifyPacket p = .mouse (p 3) (p 4) (p 5) (p 6) (p 7) := by
  rw [classifyPacket, if_pos h]

theorem classifyPacket_keyboard (p : Nat → Byte) (h : p 2 = 0x08) :
    classifyPacket p = .keyboard (p 3) #v[p 5, p 6, p 7, p 8, p 9, p 10] := by
  rw [classifyPacket, if_neg (by rw [h]; decide), if_pos h]

/-- The five finger blocks of an Absolute packet (R79). -/
def packetFingers (p : Nat → Byte) : Vector FingerData 5 :=
  #v[packetFinger p 0, packetFinger p 1, packetFinger p 2, packetFinger p 3, packetFinger p 4]

theorem packetFingers_getElem (p : Nat → Byte) (i : Fin 5) : (packetFingers p)[i.val] = packetFinger p i := by
  match i with
  | 0 | 1 | 2 | 3 | 4 => rfl

theorem classifyPacket_absolute (p : Nat → Byte) (h : p 2 = 0x09) :
    classifyPacket p = .absolute (p 3) (packetFingers p) (p 29) := by
  rw [classifyPacket, if_neg (by rw [h]; decide), if_neg (by rw [h]; decide), if_pos h, packetFingers]

theorem classifyPacket_empty (p : Nat → Byte) (h6 : p 2 ≠ 0x06) (h8 : p 2 ≠ 0x08) (h9 : p 2 ≠ 0x09) :
    classifyPacket p = .empty := by
  rw [classifyPacket, if_neg h6, if_neg h8, if_neg h9]

/-- Settles O18: one case for each layout, with the bytes of the list read by `byteAt`. -/
theorem packetsDecodeByTheirLayout : Obligations.PacketsDecodeByTheirLayout := by
  intro p h
  rw [decode_packet p h]
  simp only [getElem_eq_byteAt]
  refine ⟨fun hid => ?mouse, fun hid => ?keyboard, fun hid => ?absolute, fun h6 h8 h9 => ?empty⟩
  case mouse =>
    rw [classifyPacket_mouse _ hid]
    rfl
  case keyboard =>
    rw [classifyPacket_keyboard _ hid]
    rfl
  case absolute =>
    rw [classifyPacket_absolute _ hid]
    refine ⟨packetFingers (byteAt p), rfl, fun i => ?_⟩
    rw [packetFingers_getElem]
    exact ⟨rfl, le16_toNat _ _, le16_toNat _ _⟩
  case empty =>
    rw [classifyPacket_empty _ h6 h8 h9]
    rfl

end Sys2Proof

/-! The prologue in front of every command, and the counts it refuses (spec 30_encoding.md R84, R85). -/

namespace Sys2Proof.Machine

/-- Every command is some body behind the common prologue (R84). -/
theorem exec_command_eq_withPrologue (i : Instr) (hc : i.isCommand = true) :
    ∃ body, ∀ s, exec i s = withPrologue i body s := by
  cases i with
  | emaWriteFrame | emaReadRequest | emaReadResponse | reportMouse | reportKeyboard | reportAbsolute
  | reportEmpty => cases hc
  | _ =>
    simp only [exec, execEmaWrite, execEmaRead, execRd8, execWr8, execRd16, execDecodeAny, execDecodeMouse,
      execDecodeKeyboard, execDecodeAbsolute, execQvalid, execQcontact, execQbutton]
    exact ⟨_, fun _ => rfl⟩

theorem countLegal_status (i : Instr) (s : State) (st : BitVec 6) :
    countLegal i { s with status := st } = countLegal i s := by
  cases i <;> rfl

/-- What the prologue hands on does not depend on the flags before it (R84). -/
theorem withPrologue_status (i : Instr) (body : State → Result) (s : State) (st : BitVec 6) :
    withPrologue i body { s with status := st } = withPrologue i body s := by
  have hclear : State.clearFlags { s with status := st } = s.clearFlags := rfl
  simp only [withPrologue, commandError, countLegal_status, hclear]

/-- Settles O19, from the common prologue of every command. -/
theorem prologueRefusesByValueAndClearsFlags : Obligations.PrologueRefusesByValueAndClearsFlags := by
  refine ⟨fun s o w rest e hp hi ho hd => ?_, fun s i hc hl => ?_, fun s i st hc => ?_⟩
  · rw [step_illegal s o w rest e hp hi ho hd, commandError_eq]
  · obtain ⟨body, hbody⟩ := exec_command_eq_withPrologue i hc
    rw [hbody, withPrologue_illegal i body s hl, commandError_eq]
  · obtain ⟨body, hbody⟩ := exec_command_eq_withPrologue i hc
    rw [hbody, hbody, withPrologue_status i body s st]

theorem countLegal_emaWrite_iff (s : State) : countLegal .emaWrite s = true ↔ s.count.toNat ≤ 255 :=
  decide_eq_true_iff

theorem countLegal_emaRead_iff (s : State) : countLegal .emaRead s = true ↔ s.count.toNat ≤ Config.dataCap :=
  Config.withinDataCap_iff _

/-- Settles O20: two commands have a bound on COUNT, and neither bound exceeds DATA_CAP. -/
theorem countIsIllegalInTwoCases : Obligations.CountIsIllegalInTwoCases := by
  refine ⟨fun s i _ => ?_, fun s k hl hk => ?_⟩
  · cases i with
    | emaWrite => simp [← Bool.not_eq_true, countLegal_emaWrite_iff]
    | emaRead => simp [← Bool.not_eq_true, countLegal_emaRead_iff]
    | _ => simp [countLegal]
  · have hcap := Config.dataCap_bounds.1
    rw [countLegal_emaWrite_iff, countLegal_emaRead_iff] at hl
    exact (inBuffer_data k).2 (by omega)

end Sys2Proof.Machine

/-! The response validator field by field, and the responses its two flags let pass (spec 40_ema_codec.md R110 to
R122). -/

namespace Sys2Proof

theorem sum8_cons (x : Byte) (xs : List Byte) : sum8 (x :: xs) = x + sum8 xs :=
  (sum8_append [x] xs).trans (by simp [sum8])

/-- A changed byte moves the checksum by the difference of the two values (R11). -/
theorem sum8_set (xs : List Byte) (p : Nat) (b : Byte) (hp : p < xs.length) :
    sum8 (xs.set p b) + byteAt xs p = sum8 xs + b := by
  induction xs generalizing p with
  | nil => cases hp
  | cons x xs ih =>
    cases p with
    | zero =>
      simp only [List.set_cons_zero, sum8_cons, byteAt, List.getD_cons_zero]
      ac_rfl
    | succ p =>
      have ih := ih p (Nat.lt_of_succ_lt_succ hp)
      simp only [byteAt] at ih
      simp only [List.set_cons_succ, sum8_cons, byteAt, List.getD_cons_succ]
      rw [add_assoc, ih, add_assoc]

/-- Two lists of bytes that differ at one position have different checksums (R120). -/
theorem sum8_set_ne (xs : List Byte) (p : Nat) (b : Byte) (hp : p < xs.length) (hb : byteAt xs p ≠ b) :
    sum8 (xs.set p b) ≠ sum8 xs := by
  intro hsum
  have hset := sum8_set xs p b hp
  rw [hsum] at hset
  exact hb (add_left_cancel hset)

theorem byteAt_set_of_ne (xs : List Byte) (p k : Nat) (b : Byte) (h : p ≠ k) :
    byteAt (xs.set p b) k = byteAt xs k := by
  simp only [byteAt, List.getD_eq_getElem?_getD, List.getElem?_set_ne h]

end Sys2Proof

namespace Sys2Proof.Machine

/-! The diagnostic fields, for a response of any length: m is `min resp.length (c + 3)` (R110), k is
`min m (c + 2)` (R111). -/

theorem emaReadCore_lenPresent (c : Nat) (resp : List Byte) :
    (emaReadCore c resp).diag.lenPresent = decide (2 ≤ min resp.length (c + 3)) := by
  simp only [emaReadCore, List.length_take, Nat.min_comm (c + 3)]

theorem emaReadCore_csumPresent (c : Nat) (resp : List Byte) :
    (emaReadCore c resp).diag.csumPresent = decide (min resp.length (c + 3) = c + 3) := by
  simp only [emaReadCore, List.length_take, Nat.min_comm (c + 3)]

theorem emaReadCore_declLen_toNat (c : Nat) (resp : List Byte) :
    (emaReadCore c resp).diag.declLen.toNat =
      if 2 ≤ min resp.length (c + 3) then (byteAt resp 0).toNat + 256 * (byteAt resp 1).toNat else 0 := by
  simp only [emaReadCore, declaredLength_toNat, List.length_take, Nat.min_comm (c + 3)]
  rw [byteAt_take resp _ 0 (by omega), byteAt_take resp _ 1 (by omega)]

theorem emaReadCore_calcCsum_toNat (c : Nat) (resp : List Byte) :
    (emaReadCore c resp).diag.calcCsum.toNat =
      ((resp.take (min (min resp.length (c + 3)) (c + 2))).map BitVec.toNat).sum % 256 := by
  have hk : min (min (min resp.length (c + 3)) (c + 2)) (c + 3) = min (min resp.length (c + 3)) (c + 2) := by
    omega
  simp only [emaReadCore, sum8_toNat, List.length_take, List.take_take, Nat.min_comm (c + 3), hk]

theorem emaReadCore_rxCsum_toNat (c : Nat) (resp : List Byte) :
    (emaReadCore c resp).diag.rxCsum.toNat =
      if min resp.length (c + 3) = c + 3 then (byteAt resp (c + 2)).toNat else 0 := by
  simp only [emaReadCore, List.length_take, Nat.min_comm (c + 3), decide_eq_true_eq]
  rw [byteAt_take resp _ (c + 2) (by omega)]
  split <;> rfl

/-- For a count in the bounds of R8 the two 16-bit counts hold k and m. -/
theorem emaReadCore_counts_toNat (c : Nat) (resp : List Byte) (hc : c ≤ 65532) :
    (emaReadCore c resp).diag.counted.toNat = min (min resp.length (c + 3)) (c + 2) ∧
      (emaReadCore c resp).diag.delivered.toNat = min resp.length (c + 3) := by
  simp only [emaReadCore, List.length_take, Nat.min_comm (c + 3), BitVec.toNat_ofNat]
  omega

/-- CSUM_MISMATCH by the diagnostic fields (R115). -/
theorem emaReadCore_csumMismatch_iff (c : Nat) (resp : List Byte) :
    (emaReadCore c resp).csumMismatch = true ↔
      ¬ (emaReadCore c resp).diag.csumPresent = true ∨
        (emaReadCore c resp).diag.rxCsum.toNat ≠ (emaReadCore c resp).diag.calcCsum.toNat := by
  have hflag : (emaReadCore c resp).csumMismatch = (!(emaReadCore c resp).diag.csumPresent ||
      (emaReadCore c resp).diag.rxCsum != (emaReadCore c resp).diag.calcCsum) := rfl
  rw [hflag, Bool.or_eq_true, Bool.not_eq_true', Bool.not_eq_true, bne_iff_ne, ne_eq, ← BitVec.toNat_inj]

/-- LEN_MISMATCH by the diagnostic fields and k (R116). -/
theorem emaReadCore_lenMismatch_iff (c : Nat) (resp : List Byte) :
    (emaReadCore c resp).lenMismatch = true ↔
      ¬ (emaReadCore c resp).diag.lenPresent = true ∨
        min (min resp.length (c + 3)) (c + 2) ≠ (emaReadCore c resp).diag.declLen.toNat := by
  have hflag : (emaReadCore c resp).lenMismatch = (!(emaReadCore c resp).diag.lenPresent ||
      (emaReadCore c resp).diag.declLen.toNat != min (resp.take (c + 3)).length (c + 2)) := rfl
  rw [hflag, Bool.or_eq_true, Bool.not_eq_true', Bool.not_eq_true, bne_iff_ne, ne_comm, List.length_take,
    Nat.min_comm (c + 3)]

/-- Settles O24: the fields one by one, and each flag by the fields it compares. -/
theorem validatorComputesItsFields : Obligations.ValidatorComputesItsFields := by
  intro c resp
  refine ⟨?_, ?_, emaReadCore_declLen_toNat c resp, emaReadCore_calcCsum_toNat c resp,
    emaReadCore_rxCsum_toNat c resp, emaReadCore_lenPresent c resp, emaReadCore_csumPresent c resp,
    emaReadCore_counts_toNat c resp⟩
  · rw [emaReadCore_csumMismatch_iff, emaReadCore_csumPresent, decide_eq_true_iff, emaReadCore_rxCsum_toNat,
      emaReadCore_calcCsum_toNat]
  · rw [emaReadCore_lenMismatch_iff, emaReadCore_lenPresent, decide_eq_true_iff, emaReadCore_declLen_toNat]

/-! The flags of a response the transport may deliver, of at most c + 3 bytes (R58). -/

/-- No CSUM_MISMATCH: the response is complete and its last byte is the sum of the others (R114, R115). -/
theorem emaReadCore_csumMismatch_eq_false_iff (c : Nat) (r : List Byte) (h : r.length ≤ c + 3) :
    (emaReadCore c r).csumMismatch = false ↔
      r.length = c + 3 ∧ (byteAt r (c + 2)).toNat = ((r.take (c + 2)).map BitVec.toNat).sum % 256 := by
  by_cases hfull : r.length = c + 3
  · rw [(emaReadCore_complete c r hfull).1, bne_eq_false_iff_eq, ← BitVec.toNat_inj, sum8_toNat]
    exact (and_iff_right hfull).symm
  · rw [emaReadCore_short c r (by omega)]
    simp [hfull]

/-- No LEN_MISMATCH: the length arrived and is the number of bytes counted (R112, R116). -/
theorem emaReadCore_lenMismatch_eq_false_iff (c : Nat) (r : List Byte) (h : r.length ≤ c + 3) :
    (emaReadCore c r).lenMismatch = false ↔
      2 ≤ r.length ∧ (byteAt r 0).toNat + 256 * (byteAt r 1).toNat = min r.length (c + 2) := by
  rw [← Bool.not_eq_true, emaReadCore_lenMismatch_iff, emaReadCore_lenPresent, decide_eq_true_iff,
    emaReadCore_declLen_toNat, Nat.min_eq_left h]
  by_cases hlen : 2 ≤ r.length
  · simp [hlen, eq_comm]
  · simp [hlen]

/-- Settles O25: the flags compared with a complete response, and a response to a request of 0 bytes for each
combination. -/
theorem goodReadExactly : Obligations.GoodReadExactly := by
  refine ⟨fun c resp h => ?_, fun cs len => ?_⟩
  · rw [emaReadCore_csumMismatch_eq_false_iff c resp h, emaReadCore_lenMismatch_eq_false_iff c resp h]
    constructor
    · rintro ⟨⟨hfull, hsum⟩, -, hdecl⟩
      exact ⟨hfull, hsum, by omega⟩
    · rintro ⟨hfull, hsum, hdecl⟩
      exact ⟨⟨hfull, hsum⟩, by omega, by omega⟩
  · cases cs with
    | false =>
      cases len with
      | false => exact ⟨0, [2, 0, 2], by decide⟩
      | true => exact ⟨0, [3, 0, 3], by decide⟩
    | true =>
      cases len with
      | false => exact ⟨0, [2, 0, 3], by decide⟩
      | true => exact ⟨0, [], by decide⟩

/-- Settles O26: the checksum byte stays and the sum it is compared with changes. -/
theorem oneCorruptByteIsSeen : Obligations.OneCorruptByteIsSeen := by
  intro c resp p b hfull hgood hp hb
  rw [(emaReadCore_complete c resp hfull).1, bne_eq_false_iff_eq] at hgood
  have hlen : p < (resp.take (c + 2)).length := by
    rw [List.length_take]
    omega
  have hsum : sum8 ((resp.take (c + 2)).set p b) ≠ sum8 (resp.take (c + 2)) :=
    sum8_set_ne _ p b hlen (by rwa [byteAt_take resp _ _ hp])
  rw [(emaReadCore_complete c (resp.set p b) (by rw [List.length_set, hfull])).1, bne_iff_ne,
    byteAt_set_of_ne resp p (c + 2) b (by omega), hgood, List.take_set]
  exact hsum.symm

/-- Settles O28, from the two conditions under which the flags are 0. -/
theorem wrongLengthAloneSetsLenMismatch : Obligations.WrongLengthAloneSetsLenMismatch := by
  refine ⟨fun c resp hfull hsum hdecl => ⟨?_, ?_⟩, by decide, by decide⟩
  · rw [← Bool.not_eq_false, emaReadCore_lenMismatch_eq_false_iff c resp hfull.le]
    omega
  · exact (emaReadCore_csumMismatch_eq_false_iff c resp hfull.le).2 ⟨hfull, hsum⟩

end Sys2Proof.Machine

/-! The frame of EMA_WRITE, sent and read back (spec 30_encoding.md R70 to R74; 40_ema_codec.md R100 to R103). -/

namespace Sys2Proof

/-- The first eight bytes of a write frame announce its address and the length of its payload (R70, R71). -/
theorem decodeFrame_writePreamble (a : Word) (c : Half) (rest : List Byte) (hc : c.toNat ≤ 255) :
    decodeFrame (preamble dirWrite a c ++ rest) = decodeWritePayload a c.toNat rest := by
  have hdir : dirWrite ≠ dirRead := by decide
  simp only [preamble, le4Bytes, le2Bytes, List.cons_append, List.nil_append, decodeFrame, le32_le4Bytes,
    le16_le2Bytes, ne_eq, not_true_eq_false, if_false, if_true, if_neg hdir, if_neg (Nat.not_lt.2 hc)]

theorem decodeWritePayload_append (a : Word) (p : List Byte) (cs : Byte) (rest : List Byte) :
    decodeWritePayload a p.length (p ++ cs :: rest) = .ok (.emaWriteFrame a p, rest) := by
  simp only [decodeWritePayload, List.drop_left, List.take_left]

/-- A write frame at the head of a stream is read back as its address and payload (R71, R74). -/
theorem decodeFrame_writeFrame (a : Word) (p rest : List Byte) (hp : p.length ≤ 255) :
    decodeFrame (writeFrame a p ++ rest) = .ok (.emaWriteFrame a p, rest) := by
  have hc : (BitVec.ofNat 16 p.length).toNat = p.length := by
    rw [BitVec.toNat_ofNat]
    omega
  rw [writeFrame, withChecksum, List.append_assoc, List.append_assoc, decodeFrame_writePreamble _ _ _ (by omega),
    hc]
  exact decodeWritePayload_append a p _ rest

theorem decode_writeFrame (a : Word) (p : List Byte) (hp : p.length ≤ 255) :
    decode (.frame (writeFrame a p)) = .ok (.emaWriteFrame a p) := by
  have hd := decodeFrame_writeFrame a p [] hp
  rw [List.append_nil] at hd
  simp only [decode, hd]

/-- A list with its checksum ends in the sum of the bytes before it (R11). -/
theorem byteAt_withChecksum (xs : List Byte) : byteAt (withChecksum xs) xs.length = sum8 xs := by
  simp [byteAt, withChecksum]

end Sys2Proof

namespace Sys2Proof.Machine

/-- After the prologue a write command whose call returns sends its frame (R57, R100, R142). -/
theorem sendWriteFrame_returns (a : Word) (p : List Byte) (s : State) (ack : List Byte)
    (h : s.draw.1 = .returns ack) :
    sendWriteFrame a p s.clearFlags = .next { s.draw.2 with
      status := 0, trace := s.trace ++ [.w (writeFrame a p) true], busHeld := false } := by
  have hdraw : s.clearFlags.draw = (s.draw.1, { s.draw.2 with status := 0 }) := s.draw_status 0
  rw [sendWriteFrame, busWrite_returns _ _ _ ack (by rw [hdraw, h]), hdraw]
  rfl

@[simp] theorem State.writePayload_length (s : State) : s.writePayload.length = s.count.toNat :=
  s.dataBytes_length _

/-- The bytes of EMA_WRITE's frame that its checksum covers (R100). -/
def State.writeBody (s : State) : List Byte := preambleBytes 0x00 s.addr s.count ++ s.writePayload

theorem State.writeBody_length (s : State) : s.writeBody.length = 8 + s.count.toNat := by
  rw [State.writeBody, List.length_append, s.writePayload_length]
  rfl

/-- COUNT is the length of the payload, so it stands in the frame as it is (R100). -/
theorem writeFrame_writePayload (s : State) : writeFrame s.addr s.writePayload = withChecksum s.writeBody := by
  rw [writeFrame, s.writePayload_length, BitVec.ofNat_toNat, BitVec.setWidth_eq, preamble_eq]
  rfl

/-- Settles O21: the prologue by COUNT, then one bus write of the frame. -/
theorem emaWriteSendsOneFrame : Obligations.EmaWriteSendsOneFrame := by
  refine fun s ack => ⟨fun hn hack => ?_, fun hn => ?_⟩
  · have hl := (countLegal_emaWrite_iff s).2 hn
    refine (withPrologue_legal .emaWrite _ s hl).trans
      ((sendWriteFrame_returns s.addr s.writePayload s ack hack).trans ?_)
    rw [writeFrame_writePayload, withChecksum, sum8_eq_ofNat]
    rfl
  · have hl := eq_false_of_ne_true (mt (countLegal_emaWrite_iff s).1 (Nat.not_le.2 hn))
    exact (withPrologue_illegal .emaWrite _ s hl).trans (commandError_eq s)

/-- Settles O22: the one event is the frame of ADDR and the payload, which ends in its checksum and decodes. -/
theorem sentFramesVerify : Obligations.SentFramesVerify := by
  intro s t hn h
  have hl := (countLegal_emaWrite_iff s).2 hn
  have hsend : sendWriteFrame s.addr s.writePayload s.clearFlags = .next t :=
    (withPrologue_legal .emaWrite _ s hl).symm.trans h
  have htake : (withChecksum s.writeBody).take (8 + s.count.toNat) = s.writeBody :=
    List.take_left' s.writeBody_length
  refine ⟨writeFrame s.addr s.writePayload, sendWriteFrame_trace _ _ s t hsend, ?_, ?_, ?_, ?_⟩
  · rw [writeFrame_length, s.writePayload_length]
  · rw [writeFrame_writePayload, htake, ← s.writeBody_length, byteAt_withChecksum, sum8_toNat]
  · rw [writeFrame_writePayload]
    rfl
  · exact decode_writeFrame s.addr s.writePayload (by rwa [s.writePayload_length])

end Sys2Proof.Machine

/-! The read of EMA_READ: its two transactions, the EMA flags and the payload in DATA (spec 40_ema_codec.md R105 to
R118). -/

namespace Sys2Proof.Machine

/-- After the prologue a read whose two calls return ends in this state (R105 to R107). -/
theorem readTransaction_clearFlags_returns (count : Half) (store : State → ReadResult → State) (s : State)
    (ack resp : List Byte) (h1 : s.draw.1 = .returns ack) (h2 : s.draw.2.draw.1 = .returns resp) :
    readTransaction count store s.clearFlags =
      .next (store (State.recordResponse
          { s.draw.2.draw.2 with
            status := 0, trace := s.trace ++ [.w (readRequest s.addr count) false], busHeld := true }
          count (resp.take (count.toNat + 3)))
        (emaReadCore count.toNat (resp.take (count.toNat + 3)))) := by
  have hdraw : s.clearFlags.draw = (s.draw.1, { s.draw.2 with status := 0 }) := s.draw_status 0
  have hdraw2 : s.clearFlags.draw.2.draw = (s.draw.2.draw.1, { s.draw.2.draw.2 with status := 0 }) :=
    s.draw_draw_status 0
  rw [readTransaction_returns count store s.clearFlags ack resp (by rw [hdraw, h1]) (by rw [hdraw2, h2]), hdraw2]
  rfl

/-- The EMA flags as their two conditions set them, beside the other bits of STATUS (R105, R115, R116). -/
theorem State.setEmaFlags_status_eq (s : State) (c : Nat) (r : List Byte) (h : r.length ≤ c + 3) :
    (s.setEmaFlags (emaReadCore c r).csumMismatch (emaReadCore c r).lenMismatch).status =
      (s.status &&& 0b111100) ||| emaFlagBits c r := by
  rw [State.setEmaFlags_status, emaFlagBits]
  simp only [← emaReadCore_csumMismatch_eq_false_iff c r h, ← emaReadCore_lenMismatch_eq_false_iff c r h]
  cases (emaReadCore c r).csumMismatch <;> cases (emaReadCore c r).lenMismatch <;> rfl

/-- DATA after a read: the payload bytes that arrived, and before it beyond them (R117). -/
theorem State.readByte_storePayload_inside (s : State) (c : Nat) (r : List Byte) (j : Nat)
    (hr : r.length ≤ c + 3) (hj : j < c) (hc : c ≤ Config.dataCap) :
    (s.storePayload (emaReadCore c r)).readByte (dataBase + j) =
      if 2 + j < r.length then byteAt r (2 + j) else s.readByte (dataBase + j) := by
  have hlen := emaReadCore_payload_count c r hr
  split
  next harrived =>
    have hpay : j < (emaReadCore c r).payload.length := by omega
    rw [State.storePayload, State.readByte_writeBytes_inside _ s dataBase j hpay
      ((inBuffer_data j).2 (by omega)), getElem_eq_byteAt, emaReadCore_payload_byte c r j hj]
  next hmissing => exact State.readByte_writeBytes_outside _ s dataBase _ (.inr (by omega))

/-- A read writes no byte outside DATA[0..c-1] (R117). -/
theorem State.readByte_storePayload_outside (s : State) (c : Nat) (r : List Byte) (a : Nat)
    (h : a < dataBase ∨ dataBase + c ≤ a) : (s.storePayload (emaReadCore c r)).readByte a = s.readByte a := by
  have hlen := emaReadCore_payload_length c r
  exact State.readByte_writeBytes_outside _ s dataBase a (by omega)

/-- Settles O23: the prologue by COUNT, then the two transactions, the flags and DATA. -/
theorem emaReadValidatesAndFillsData : Obligations.EmaReadValidatesAndFillsData := by
  refine fun s ack resp => ⟨fun hc hack hresp => ?_, fun hc => ?_⟩
  · have hl := (countLegal_emaRead_iff s).2 hc
    have hcap := Config.dataCap_bounds.2
    have hr : (resp.take (s.count.toNat + 3)).length ≤ s.count.toNat + 3 := List.length_take_le _ _
    refine ⟨_, (withPrologue_legal .emaRead _ s hl).trans
      (readTransaction_clearFlags_returns s.count State.storePayload s ack resp hack hresp),
      ?trace, ?status, ?diag, ?data, ?others, ?_, ?_, ?_, ?_, ?_, ?_, ?_, ?_, ?_, by omega⟩
    case trace =>
      rw [State.storePayload_trace, State.recordResponse_trace, readRequest_eq_preambleBytes, List.append_assoc]
      rfl
    case status =>
      rw [State.storePayload, State.writeBytes_status, State.recordResponse_status,
        State.setEmaFlags_status_eq _ _ _ hr]
      simp
    case diag => rw [State.storePayload, State.writeBytes_diag, State.recordResponse_diag]
    case data =>
      intro j hj
      rw [State.readByte_storePayload_inside _ _ _ j hr hj hc, State.readByte_congr s _ (by simp) (by simp)]
    case others =>
      intro a ha
      rw [State.readByte_storePayload_outside _ _ _ a ha]
      exact State.readByte_congr s _ (by simp) (by simp) a
    -- the other fields, which no part of the read writes, and the released bus
    all_goals simp [State.storePayload]
  · have hl := eq_false_of_ne_true (mt (countLegal_emaRead_iff s).1 (Nat.not_le.2 hc))
    exact (withPrologue_illegal .emaRead _ s hl).trans (commandError_eq s)

end Sys2Proof.Machine

/-! The register access helpers: RD8 and RD16 as reads of one and two bytes into VALUE, and the frame of WR8 (spec
41_register_access.md R140 to R145). -/

namespace Sys2Proof.Machine

/-- The end of a read as one update, with the EMA flags by their conditions (R105, R107, R118). -/
theorem State.recordResponse_eq (s : State) (count : Half) (r : List Byte) (h : r.length ≤ count.toNat + 3) :
    s.recordResponse count r = { s with
      trace := s.trace ++ [.q (count.toNat + 3) true r]
      busHeld := false
      status := (s.status &&& 0b111100) ||| emaFlagBits count.toNat r
      diag := (emaReadCore count.toNat r).diag } := by
  rw [← s.setEmaFlags_status_eq count.toNat r h]
  rfl

/-- After the prologue a read whose two calls return hands its destination a state that differs from the one after
two draws in TRACE, the bus, STATUS and DIAG alone (R105 to R107, R118). -/
theorem readTransaction_clearFlags_eq (count : Half) (store : State → ReadResult → State) (s : State)
    (ack resp : List Byte) (h1 : s.draw.1 = .returns ack) (h2 : s.draw.2.draw.1 = .returns resp) :
    readTransaction count store s.clearFlags =
      .next (store { s.draw.2.draw.2 with
          trace := s.trace ++ [.w (preambleBytes 0x01 s.addr count) false,
            .q (count.toNat + 3) true (resp.take (count.toNat + 3))]
          busHeld := false
          status := emaFlagBits count.toNat (resp.take (count.toNat + 3))
          diag := (emaReadCore count.toNat (resp.take (count.toNat + 3))).diag }
        (emaReadCore count.toNat (resp.take (count.toNat + 3)))) := by
  rw [readTransaction_clearFlags_returns count store s ack resp h1 h2,
    State.recordResponse_eq _ _ _ (List.length_take_le _ _), readRequest_eq_preambleBytes]
  simp

/-- STATUS[1:0] = 0 is that neither mismatch was found (R115, R116). -/
theorem emaFlagBits_eq_zero_iff (c : Nat) (r : List Byte) (h : r.length ≤ c + 3) :
    emaFlagBits c r = 0 ↔ (emaReadCore c r).csumMismatch = false ∧ (emaReadCore c r).lenMismatch = false := by
  rw [emaFlagBits]
  simp only [← emaReadCore_csumMismatch_eq_false_iff c r h, ← emaReadCore_lenMismatch_eq_false_iff c r h]
  cases (emaReadCore c r).csumMismatch <;> cases (emaReadCore c r).lenMismatch <;> decide

theorem emaReadCore_good_iff (c : Nat) (r : List Byte) (h : r.length ≤ c + 3) :
    (emaReadCore c r).good = true ↔ emaFlagBits c r = 0 := by
  rw [emaFlagBits_eq_zero_iff c r h, ReadResult.good, Bool.and_eq_true, Bool.not_eq_true', Bool.not_eq_true']

/-- Flags of 0 need every byte that was asked for (R119). -/
theorem length_of_emaFlagBits_eq_zero (c : Nat) (r : List Byte) (h : r.length ≤ c + 3)
    (hgood : emaFlagBits c r = 0) : r.length = c + 3 :=
  ((goodReadExactly.1 c r h).1 ((emaFlagBits_eq_zero_iff c r h).1 hgood)).1

theorem le16_eq_ofNat (lo hi : Byte) : le16 lo hi = BitVec.ofNat 16 (lo.toNat + 256 * hi.toNat) := by
  rw [← le16_toNat, BitVec.ofNat_toNat, BitVec.setWidth_eq]

/-- RD8's destination by the flags and the response byte (R140, R141). -/
theorem State.storeValue8_emaReadCore (s : State) (r : List Byte) (h : r.length ≤ 4) :
    s.storeValue8 (emaReadCore 1 r) = { s with
      value := if emaFlagBits 1 r = 0 then BitVec.ofNat 16 (byteAt r 2).toNat else s.value } := by
  simp only [State.storeValue8, emaReadCore_good_iff 1 r h, emaReadCore_payload_byte 1 r 0 Nat.one_pos,
    BitVec.ofNat_toNat]

/-- RD16's destination by the flags and the two response bytes (R141, R144). -/
theorem State.storeValue16_emaReadCore (s : State) (r : List Byte) (h : r.length ≤ 5) :
    s.storeValue16 (emaReadCore 2 r) = { s with
      value := if emaFlagBits 2 r = 0 then
          BitVec.ofNat 16 ((byteAt r 2).toNat + 256 * (byteAt r 3).toNat) else s.value } := by
  simp only [State.storeValue16, emaReadCore_good_iff 2 r h, emaReadCore_payload_byte 2 r 0 Nat.two_pos,
    emaReadCore_payload_byte 2 r 1 Nat.one_lt_two, le16_eq_ofNat]

/-- Settles O29: a read of count 1 behind the prologue, stored into VALUE. -/
theorem rd8ReadsOneByte : Obligations.Rd8ReadsOneByte := by
  intro s ack resp hack hresp r
  have hr : r.length ≤ 4 := List.length_take_le _ _
  refine ⟨length_of_emaFlagBits_eq_zero 1 r hr, ?_⟩
  refine (withPrologue_legal .rd8 _ s rfl).trans
    ((readTransaction_clearFlags_eq 1 State.storeValue8 s ack resp hack hresp).trans ?_)
  refine congrArg Host.Outcome.next ((State.storeValue8_emaReadCore _ r hr).trans ?_)
  simp only [State.draw_value]
  rfl

/-- Settles O30: a read of count 2 behind the prologue, stored into VALUE. -/
theorem rd16ReadsTwoBytesLowFirst : Obligations.Rd16ReadsTwoBytesLowFirst := by
  intro s ack resp hack hresp r
  have hr : r.length ≤ 5 := List.length_take_le _ _
  refine (withPrologue_legal .rd16 _ s rfl).trans
    ((readTransaction_clearFlags_eq 2 State.storeValue16 s ack resp hack hresp).trans ?_)
  refine congrArg Host.Outcome.next ((State.storeValue16_emaReadCore _ r hr).trans ?_)
  simp only [State.draw_value]
  rfl

/-- The write frame of one byte is its preamble with count 1 and the byte, and their sum (R71, R142). -/
theorem writeFrame_singleton (a : Word) (v : Byte) :
    writeFrame a [v] = withChecksum (preambleBytes 0x00 a 1 ++ [v]) := by
  rw [writeFrame, preamble_eq]
  rfl

/-- EMA_WRITE's payload with COUNT = 1 and DATA[0] = v (R100). -/
theorem State.writePayload_count_one (s : State) (v : Byte) :
    State.writePayload { s.writeByte dataBase v with count := 1 } = [v] := by
  have hcap := Config.dataCap_bounds.1
  have hbyte : State.readByte { s.writeByte dataBase v with count := 1 } dataBase = v :=
    (State.readByte_congr (s.writeByte dataBase v) _ rfl rfl dataBase).trans
      (s.readByte_writeByte_same dataBase v ((inBuffer_data 0).2 (by omega)))
  exact congrArg (fun b => [b]) hbyte

/-- WR8 passes the prologue whatever COUNT holds (R85, R142). -/
theorem exec_wr8 (v : Byte) (s : State) : exec (.wr8 v) s = sendWriteFrame s.addr [v] s.clearFlags :=
  withPrologue_legal (.wr8 v) (fun t => sendWriteFrame t.addr [v] t) s rfl

/-- EMA_WRITE with a legal COUNT appends the frame of its payload (R100). -/
theorem emaWrite_trace (s u : State) (hn : s.count.toNat ≤ 255) (h : exec .emaWrite s = .next u) :
    u.trace = s.trace ++ [.w (writeFrame s.addr s.writePayload) true] :=
  sendWriteFrame_trace s.addr s.writePayload s u
    ((withPrologue_legal .emaWrite _ s ((countLegal_emaWrite_iff s).2 hn)).symm.trans h)

/-- Settles O31: one bus write of the frame behind the prologue, and the same frame from EMA_WRITE's payload. -/
theorem wr8SendsOneByteFrame : Obligations.Wr8SendsOneByteFrame := by
  intro s v ack hack body
  refine ⟨?_, fun t u ht hu => ?_⟩
  · rw [exec_wr8, sendWriteFrame_returns s.addr [v] s ack hack, writeFrame_singleton, withChecksum, sum8_eq_ofNat]
    rfl
  · have hcount : (1 : Half).toNat ≤ 255 := by decide
    rw [exec_wr8] at ht
    rw [sendWriteFrame_trace s.addr [v] s t ht, emaWrite_trace _ u hcount hu, s.writePayload_count_one v,
      State.writeByte_trace, State.writeByte_addr]

end Sys2Proof.Machine

/-! DECODE in its four forms, as a function of the expected kind and the bytes of PKT (spec 42_report_decoder.md R160 to
R168). -/

namespace Sys2Proof.Machine

/-- The DECODE commands, each with its expected kind (R160). -/
def IsDecode (i : Instr) (e : Byte) : Prop :=
  (i = .decodeAny ∧ e = 0x00) ∨ (i = .decodeMouse ∧ e = 0x06) ∨ (i = .decodeKeyboard ∧ e = 0x08) ∨
    (i = .decodeAbsolute ∧ e = 0x09)

theorem exec_decode {i : Instr} {e : Byte} (h : IsDecode i e) (s : State) :
    exec i s = .next (decodeReport e s.clearFlags) := by
  obtain ⟨hbody, hlegal⟩ :
      exec i s = withPrologue i (fun t => .next (decodeReport e t)) s ∧ countLegal i s = true := by
    rcases h with ⟨rfl, rfl⟩ | ⟨rfl, rfl⟩ | ⟨rfl, rfl⟩ | ⟨rfl, rfl⟩ <;> exact ⟨rfl, rfl⟩
  rw [hbody, withPrologue_legal i _ s hlegal]

/-- Each DECODE command has an expected kind (R160). -/
theorem exists_isDecode {i : Instr}
    (h : i = .decodeAny ∨ i = .decodeMouse ∨ i = .decodeKeyboard ∨ i = .decodeAbsolute) : ∃ e, IsDecode i e := by
  rcases h with rfl | rfl | rfl | rfl
  · exact ⟨0x00, .inl ⟨rfl, rfl⟩⟩
  · exact ⟨0x06, .inr (.inl ⟨rfl, rfl⟩)⟩
  · exact ⟨0x08, .inr (.inr (.inl ⟨rfl, rfl⟩))⟩
  · exact ⟨0x09, .inr (.inr (.inr ⟨rfl, rfl⟩))⟩

/-- REPORT and STATUS[5:0] after DECODE with expected kind `e` of a packet with the bytes `p` (R165, R166). -/
def decodeResult (e : Byte) (p : Nat → Byte) : Report × BitVec 6 :=
  if e ≠ 0x00 ∧ p 2 ≠ e then (.empty, Flag.decodeFail.mask)
  else (classifyPacket p, Flag.unrecognized.maskIf (classifyPacket p == .empty))

/-- After the prologue DECODE writes its result into REPORT and STATUS, and nothing else (R168). -/
theorem decodeReport_clearFlags (e : Byte) (s : State) :
    decodeReport e s.clearFlags =
      { s with report := (decodeResult e s.pktByte).1, status := (decodeResult e s.pktByte).2 } := by
  have hpkt : s.clearFlags.pktByte = s.pktByte := rfl
  have hflags (m : BitVec 6) : s.clearFlags.status ||| m = m := BitVec.zero_or
  rw [decodeReport, decodeResult, hpkt]
  by_cases h : e ≠ 0x00 ∧ s.pktByte 2 ≠ e
  · rw [if_pos h, if_pos h, State.failDecode, State.raise, hflags]
    rfl
  · rw [if_neg h, if_neg h, State.loadReport, hflags]
    rfl

/-- The kind test comes first (R166). -/
theorem decodeResult_mismatch {e : Byte} {p : Nat → Byte} (h : e ≠ 0x00 ∧ p 2 ≠ e) :
    decodeResult e p = (.empty, 0b001000) := by
  rw [decodeResult, if_pos h]
  rfl

theorem decodeResult_mouse {e : Byte} {p : Nat → Byte} (h : ¬(e ≠ 0x00 ∧ p 2 ≠ e)) (hid : p 2 = 0x06) :
    decodeResult e p = (.mouse (p 3) (p 4) (p 5) (p 6) (p 7), 0) := by
  rw [decodeResult, if_neg h, classifyPacket_mouse p hid]
  rfl

theorem decodeResult_keyboard {e : Byte} {p : Nat → Byte} (h : ¬(e ≠ 0x00 ∧ p 2 ≠ e)) (hid : p 2 = 0x08) :
    decodeResult e p = (.keyboard (p 3) #v[p 5, p 6, p 7, p 8, p 9, p 10], 0) := by
  rw [decodeResult, if_neg h, classifyPacket_keyboard p hid]
  rfl

theorem decodeResult_absolute {e : Byte} {p : Nat → Byte} (h : ¬(e ≠ 0x00 ∧ p 2 ≠ e)) (hid : p 2 = 0x09) :
    decodeResult e p = (.absolute (p 3) (packetFingers p) (p 29), 0) := by
  rw [decodeResult, if_neg h, classifyPacket_absolute p hid]
  rfl

/-- An ID without a layout gives Empty and UNRECOGNIZED (R165). -/
theorem decodeResult_unrecognized {e : Byte} {p : Nat → Byte} (h : ¬(e ≠ 0x00 ∧ p 2 ≠ e))
    (h6 : p 2 ≠ 0x06) (h8 : p 2 ≠ 0x08) (h9 : p 2 ≠ 0x09) : decodeResult e p = (.empty, 0b000100) := by
  rw [decodeResult, if_neg h, classifyPacket_empty p h6 h8 h9]
  rfl

/-- Settles O35: the kind test, then one case for each layout and one for every other ID. -/
theorem decodeClassifiesThePacket : Obligations.DecodeClassifiesThePacket := by
  intro s i e hi p finger
  rw [exec_decode hi, decodeReport_clearFlags]
  change Host.Outcome.next { s with report := (decodeResult e p).1, status := (decodeResult e p).2 } = _
  by_cases hkind : e ≠ 0x00 ∧ p 2 ≠ e
  · rw [if_pos hkind, decodeResult_mismatch hkind]
  rw [if_neg hkind]
  by_cases h6 : p 2 = 0x06
  · rw [if_pos h6, decodeResult_mouse hkind h6]
  rw [if_neg h6]
  by_cases h8 : p 2 = 0x08
  · rw [if_pos h8, decodeResult_keyboard hkind h8]
  rw [if_neg h8]
  by_cases h9 : p 2 = 0x09
  · rw [if_pos h9, decodeResult_absolute hkind h9]
    rfl
  · rw [if_neg h9, decodeResult_unrecognized hkind h6 h8 h9]

/-- Two's complement of a byte, by its unsigned value (R162). -/
theorem byte_toInt (b : Byte) : b.toInt = if b.toNat < 128 then (b.toNat : Int) else (b.toNat : Int) - 256 := by
  rw [BitVec.toInt_eq_toNat_cond]
  split <;> split <;> omega

/-- Settles O36: a Mouse packet is DECODE's mouse case, and each delta is a byte of it. -/
theorem mouseDeltasAreSigned : Obligations.MouseDeltasAreSigned := by
  intro s hid
  have hrun := exec_decode (.inl ⟨rfl, rfl⟩ : IsDecode .decodeAny 0x00) s
  rw [decodeReport_clearFlags, decodeResult_mouse (fun h => h.1 rfl) hid] at hrun
  refine ⟨_, _, _, _, _, _, hrun, rfl, rfl, ?deltas, ?_, ?_, ?_⟩
  case deltas =>
    rintro d k (⟨rfl, rfl⟩ | ⟨rfl, rfl⟩ | ⟨rfl, rfl⟩ | ⟨rfl, rfl⟩) <;> exact byte_toInt _
  -- the three bytes the title names
  all_goals
    intro h
    rw [h]
    rfl

/-- The result reads no byte of the packet outside 2 to 29 (R168). -/
theorem decodeResult_congr (e : Byte) {p q : Nat → Byte} (h : ∀ k, 2 ≤ k → k ≤ 29 → q k = p k) :
    decodeResult e q = decodeResult e p := by
  have hclass : classifyPacket q = classifyPacket p := by
    simp (disch := decide) only [classifyPacket, packetFinger, h]
  rw [decodeResult, decodeResult, hclass, h 2 (by decide) (by decide)]

/-- Settles O37: DECODE writes the result of the expected kind and PKT, which it leaves unchanged. -/
theorem decodeIsAFunctionOfThePacket : Obligations.DecodeIsAFunctionOfThePacket := by
  intro s u s' u' i hi hpkt hs hu
  obtain ⟨e, he⟩ := exists_isDecode hi
  have hres : decodeResult e u.pktByte = decodeResult e s.pktByte := decodeResult_congr e hpkt
  rw [exec_decode he, decodeReport_clearFlags] at hs hu
  cases hs
  cases hu
  refine ⟨congrArg Prod.fst hres, congrArg Prod.snd hres, rfl, rfl, ?again⟩
  case again =>
    rw [exec_decode he, decodeReport_clearFlags]
    rfl

end Sys2Proof.Machine

/-! The report queries as functions of REPORT and ARG8, and the answers they give (spec 43_report_queries.md R190 to
R197). -/

namespace Sys2Proof.Machine

/-- The state in which STATUS[5:0] holds the answer of a query in QRESULT and no other flag. -/
def State.withQresult (s : State) (b : Bool) : State := { s with status := if b then 0b100000 else 0 }

/-- An answer behind the prologue, which has cleared the other flags (R84). -/
theorem State.clearFlags_answer (s : State) (b : Bool) : s.clearFlags.answer b = s.withQresult b := by
  simp [State.answer, State.clearFlags, State.withQresult]

@[simp] theorem State.withQresult_report (s : State) (b : Bool) : (s.withQresult b).report = s.report := rfl

/-- An answer replaces the answer before it (R197). -/
@[simp] theorem State.withQresult_withQresult (s : State) (b c : Bool) :
    (s.withQresult b).withQresult c = s.withQresult c := rfl

@[simp] theorem State.withQresult_flag (s : State) (b : Bool) : (s.withQresult b).flag .qresult = b := by
  cases b <;> simp [State.flag, State.withQresult, Flag.bit]

theorem exec_qvalid (n : Byte) (s : State) :
    exec (.qvalid n) s = .next (s.withQresult (fingerValid s.report n.toNat)) :=
  congrArg Host.Outcome.next (s.clearFlags_answer _)

theorem exec_qcontact (n : Byte) (s : State) :
    exec (.qcontact n) s = .next (s.withQresult (fingerContacted s.report n.toNat)) :=
  congrArg Host.Outcome.next (s.clearFlags_answer _)

theorem exec_qbutton (mask : Byte) (s : State) :
    exec (.qbutton mask) s = .next (s.withQresult (buttonPressed s.report mask)) :=
  congrArg Host.Outcome.next (s.clearFlags_answer _)

/-- Every query answers a function of REPORT alone in QRESULT (R197). -/
theorem exec_query {i : Instr} {a : Byte} (h : i = .qvalid a ∨ i = .qcontact a ∨ i = .qbutton a) :
    ∃ result : Report → Bool, ∀ s : State, exec i s = .next (s.withQresult (result s.report)) := by
  obtain rfl | rfl | rfl := h
  · exact ⟨(fingerValid · a.toNat), exec_qvalid a⟩
  · exact ⟨(fingerContacted · a.toNat), exec_qcontact a⟩
  · exact ⟨(buttonPressed · a), exec_qbutton a⟩

/-! What the three results say of REPORT. -/

theorem palmValid_iff (p : Byte) :
    palmValid p = true ↔ p &&& 0x02 ≠ 0 ∧ p &&& Config.palmRejectMask = 0 := by
  simp [palmValid, Config.confMask]

/-- The confidence bit alone makes a finger valid, whichever bit the palm-reject bit is. -/
theorem palmValid_confMask : palmValid Config.confMask = true :=
  (palmValid_iff _).2 ⟨by decide, Config.conf_and_palmReject⟩

theorem fingerValid_absolute (c : Byte) (f : Vector FingerData 5) (bt : Byte) (n : Nat) :
    fingerValid (.absolute c f bt) n = true ↔ ∃ h : n < 5, palmValid f[n].palmBits = true := by
  by_cases h : n < 5 <;> simp [fingerValid, fingerAt, h]

theorem fingerContacted_absolute (c : Byte) (f : Vector FingerData 5) (bt : Byte) (n : Nat) :
    fingerContacted (.absolute c f bt) n = true ↔ n ≤ 4 ∧ c.toNat / 2 ^ n % 2 = 1 := by
  rw [fingerContacted, Bool.and_eq_true, decide_eq_true_iff, ← BitVec.testBit_toNat,
    Nat.testBit_eq_decide_div_mod_eq, decide_eq_true_iff]

theorem buttonPressed_iff (r : Report) (mask : Byte) : buttonPressed r mask = true ↔ buttonsOf r &&& mask ≠ 0 :=
  bne_iff_ne

theorem buttonPressed_of_buttonsOf_eq_zero {r : Report} {mask : Byte} (h : buttonsOf r = 0) :
    buttonPressed r mask = false := by
  simp [buttonPressed, h]

/-- A variant without buttons reads as the byte 0, which shares no bit with any mask (R194). -/
theorem buttonsOf_and_ne_zero_iff (r : Report) (mask : Byte) :
    buttonsOf r &&& mask ≠ 0 ↔ ∃ bt : Byte, bt &&& mask ≠ 0 ∧
      ((∃ x y scroll pan, r = .mouse bt x y scroll pan) ∨ ∃ c f, r = .absolute c f bt) := by
  cases r with
  | mouse b x y scroll pan => simp [buttonsOf]
  | absolute c f b => simp [buttonsOf]
  | keyboard m k => simp [buttonsOf]
  | empty => simp [buttonsOf]

/-- Settles O38: QVALID answers `fingerValid`, and a finger with a place in the report is of an Absolute one. -/
theorem qvalidAnswersPalmBits : Obligations.QvalidAnswersPalmBits := by
  intro s n
  refine ⟨fingerValid s.report n.toNat, exec_qvalid n s, ?_⟩
  cases hr : s.report with
  | absolute c f bt => simp [fingerValid_absolute, palmValid_iff]
  | mouse b x y scroll pan => simp [fingerValid]
  | keyboard m k => simp [fingerValid]
  | empty => simp [fingerValid]

/-- Settles O39: QCONTACT answers `fingerContacted`, a bit of contactFlags in an Absolute report. -/
theorem qcontactAnswersContactBit : Obligations.QcontactAnswersContactBit := by
  intro s n
  refine ⟨fingerContacted s.report n.toNat, exec_qcontact n s, ?_⟩
  cases hr : s.report with
  | absolute c f bt => simp [fingerContacted_absolute]
  | mouse b x y scroll pan => simp [fingerContacted]
  | keyboard m k => simp [fingerContacted]
  | empty => simp [fingerContacted]

/-- Settles O40: QBUTTON tests the byte of RPT_BUTTONS, which is a button byte in two variants. -/
theorem qbuttonAnswersMaskedButtons : Obligations.QbuttonAnswersMaskedButtons := by
  intro s mask
  have hpressed := buttonPressed_iff s.report mask
  refine ⟨buttonPressed s.report mask, exec_qbutton mask s,
    hpressed.trans (buttonsOf_and_ne_zero_iff s.report mask), fun dr => ?_⟩
  rw [hostReadWord_rptButtons, setWidth32_toNat, BitVec.ofNat_toNat, BitVec.setWidth_eq]
  exact hpressed

/-- A report whose five fingers all have the same contact bit and the same validity. -/
def uniformReport (contact valid : Bool) : Report :=
  .absolute (if contact then 0x1F else 0)
    (Vector.replicate 5 { x := 0, y := 0, palmBits := if valid then Config.confMask else 0 }) 0

theorem fingerContacted_uniformReport (contact valid : Bool) (n : Nat) (h : n < 5) :
    fingerContacted (uniformReport contact valid) n = contact := by
  revert n contact valid
  decide

theorem fingerValid_uniformReport (contact valid : Bool) (n : Nat) (h : n < 5) :
    fingerValid (uniformReport contact valid) n = valid := by
  cases valid with
  | false => simp [uniformReport, fingerValid, fingerAt, h, palmValid]
  | true => exact (fingerValid_absolute _ _ _ n).2 ⟨h, by simp [palmValid_confMask]⟩

/-- Settles O41: contact is a bit of contactFlags and validity a matter of the palm bits, so a report can be given
for each pair (R193). -/
theorem contactAndValidityAreIndependent : Obligations.ContactAndValidityAreIndependent := by
  intro n contact valid hn
  refine ⟨{ State.reset with report := uniformReport contact valid }, _, _, exec_qcontact n _, exec_qvalid n _,
    ?contact, ?valid⟩
  case contact => exact (State.withQresult_flag _ _).trans (fingerContacted_uniformReport contact valid n.toNat hn)
  case valid => exact (State.withQresult_flag _ _).trans (fingerValid_uniformReport contact valid n.toNat hn)

/-- Settles O42: a Keyboard report has no buttons, and an Empty one has no fingers either. -/
theorem queriesGiveZeroOffTheirVariants : Obligations.QueriesGiveZeroOffTheirVariants := by
  intro s a
  have hbutton (hb : buttonsOf s.report = 0) : exec (.qbutton a) s = .next (s.withQresult false) := by
    rw [exec_qbutton, buttonPressed_of_buttonsOf_eq_zero hb]
  have hvalid (hr : s.report = .empty) : exec (.qvalid a) s = .next (s.withQresult false) := by
    rw [exec_qvalid, hr, fingerValid]
  have hcontact (hr : s.report = .empty) : exec (.qcontact a) s = .next (s.withQresult false) := by
    rw [exec_qcontact, hr, fingerContacted]
  constructor
  · rintro ⟨m, k, hr⟩
    exact hbutton (by rw [hr, buttonsOf])
  · intro hr
    exact ⟨hvalid hr, hcontact hr, hbutton (by rw [hr, buttonsOf])⟩

/-- Settles O43: the answer depends on REPORT alone, which the answer itself leaves unchanged. -/
theorem queriesWriteOnlyTheirResult : Obligations.QueriesWriteOnlyTheirResult := by
  intro s i a hi
  obtain ⟨result, hexec⟩ := exec_query hi
  refine ⟨s.withQresult (result s.report), hexec s, rfl, ?flags, ?again⟩
  case flags => cases result s.report <;> simp [State.withQresult]
  case again => rw [hexec, State.withQresult_report, State.withQresult_withQresult]

end Sys2Proof.Machine

/-! STATUS[5:0] after a command: which flags can stand together, and which commands can set them (spec
60_exceptions.md R216). -/

namespace Sys2Proof.Machine

/-- The values STATUS[5:0] can have after command `i`: any of the two EMA flags, or one other flag alone (R216). -/
inductive CommandStatus (i : Instr) : BitVec 6 → Prop where
  | ema (csum len : Bool) : CommandStatus i (Flag.csumMismatch.maskIf csum ||| Flag.lenMismatch.maskIf len)
  | cmdErr : CommandStatus i 0b010000
  | unrecognized (h : i = .decodeAny) : CommandStatus i 0b000100
  | decodeFail (h : i = .decodeMouse ∨ i = .decodeKeyboard ∨ i = .decodeAbsolute) : CommandStatus i 0b001000
  | qresult (h : ∃ a, i = .qvalid a ∨ i = .qcontact a ∨ i = .qbutton a) : CommandStatus i 0b100000

theorem CommandStatus.zero (i : Instr) : CommandStatus i 0 := .ema false false

theorem IsDecode.decodeAny_of_zero {i : Instr} (h : IsDecode i 0x00) : i = .decodeAny := by
  simpa [IsDecode] using h

/-- An expected kind other than 0x00 is an ID that has a layout (R160). -/
theorem IsDecode.kind_of_ne_zero {i : Instr} {e : Byte} (h : IsDecode i e) (he : e ≠ 0x00) :
    (i = .decodeMouse ∨ i = .decodeKeyboard ∨ i = .decodeAbsolute) ∧ (e = 0x06 ∨ e = 0x08 ∨ e = 0x09) := by
  rcases h with ⟨-, h0⟩ | ⟨hi, h6⟩ | ⟨hi, h8⟩ | ⟨hi, h9⟩
  · exact absurd h0 he
  · exact ⟨.inl hi, .inl h6⟩
  · exact ⟨.inr (.inl hi), .inr (.inl h8)⟩
  · exact ⟨.inr (.inr hi), .inr (.inr h9)⟩

/-- A packet of the expected kind has a layout, so UNRECOGNIZED needs expected kind 0x00 (R165, R166). -/
theorem decodeResult_commandStatus {i : Instr} {e : Byte} (hi : IsDecode i e) (p : Nat → Byte) :
    CommandStatus i (decodeResult e p).2 := by
  by_cases hkind : e ≠ 0x00 ∧ p 2 ≠ e
  · rw [decodeResult_mismatch hkind]
    exact .decodeFail (hi.kind_of_ne_zero hkind.1).1
  by_cases h6 : p 2 = 0x06
  · rw [decodeResult_mouse hkind h6]
    exact .zero i
  by_cases h8 : p 2 = 0x08
  · rw [decodeResult_keyboard hkind h8]
    exact .zero i
  by_cases h9 : p 2 = 0x09
  · rw [decodeResult_absolute hkind h9]
    exact .zero i
  rw [decodeResult_unrecognized hkind h6 h8 h9]
  by_cases he : e = 0x00
  · subst he
    exact .unrecognized hi.decodeAny_of_zero
  · have hp : p 2 = e := not_not.1 fun hne => hkind ⟨he, hne⟩
    rcases (hi.kind_of_ne_zero he).2 with rfl | rfl | rfl
    · exact absurd hp h6
    · exact absurd hp h8
    · exact absurd hp h9

/-- The validator writes STATUS[1:0] alone, here over cleared flags (R105). -/
theorem State.recordResponse_commandStatus (i : Instr) (s : State) (count : Half) (r : List Byte)
    (h : s.status = 0) : CommandStatus i (s.recordResponse count r).status := by
  have hcleared (keep flags : BitVec 6) : 0 &&& keep ||| flags = flags := by simp
  rw [State.recordResponse_status, State.setEmaFlags_status, h, hcleared]
  exact .ema _ _

theorem exec_commandStatus (i : Instr) (s t : State) (hc : i.isCommand = true) (h : exec i s = .next t) :
    CommandStatus i t.status := by
  rcases command_cases i s t hc h with ⟨-, -, rfl⟩ | ⟨p, -, -, rfl⟩ | ⟨count, store, resp, hi, -, -, rfl⟩ |
    ⟨e, hi, rfl⟩ | ⟨b, hi, rfl⟩
  · exact .cmdErr
  · exact .zero i
  · have hstore : ∀ u r, (store u r).status = u.status := by
      rcases hi with ⟨-, -, rfl⟩ | ⟨-, -, rfl⟩ | ⟨-, -, rfl⟩
      · exact fun u r => State.writeBytes_status _ u _
      · exact State.storeValue8_status
      · exact State.storeValue16_status
    rw [hstore]
    exact State.recordResponse_commandStatus i _ count _ rfl
  · rw [decodeReport_clearFlags]
    exact decodeResult_commandStatus hi s.pktByte
  · rw [State.clearFlags_answer]
    cases b with
    | false => exact .zero i
    | true => exact .qresult hi

/-- The flags read off such a value: a set flag other than the EMA flags is alone, and names its commands (R216). -/
theorem CommandStatus.flags {i : Instr} {st : BitVec 6} (h : CommandStatus i st) :
    (st.getLsbD Flag.cmdErr.bit = true → st = 0b010000) ∧
    (st.getLsbD Flag.unrecognized.bit = true → st = 0b000100 ∧ i = .decodeAny) ∧
    (st.getLsbD Flag.decodeFail.bit = true →
      st = 0b001000 ∧ (i = .decodeMouse ∨ i = .decodeKeyboard ∨ i = .decodeAbsolute)) ∧
    (st.getLsbD Flag.qresult.bit = true →
      st = 0b100000 ∧ ∃ a, i = .qvalid a ∨ i = .qcontact a ∨ i = .qbutton a) ∧
    legalStatus st = true := by
  cases h with
  | ema csum len => cases csum <;> cases len <;> exact ⟨nofun, nofun, nofun, nofun, rfl⟩
  | cmdErr => exact ⟨fun _ => rfl, nofun, nofun, nofun, rfl⟩
  | unrecognized h => exact ⟨nofun, fun _ => ⟨rfl, h⟩, nofun, nofun, rfl⟩
  | decodeFail h => exact ⟨nofun, nofun, fun _ => ⟨rfl, h⟩, nofun, rfl⟩
  | qresult h => exact ⟨nofun, nofun, nofun, fun _ => ⟨rfl, h⟩, rfl⟩

/-- Settles O51: a command ends with a `CommandStatus`; a response of no bytes has neither a checksum nor a length, so
its read sets both EMA flags. -/
theorem flagsExcludeEachOther : Obligations.FlagsExcludeEachOther :=
  ⟨fun s t i hc h => (exec_commandStatus i s t hc h).flags,
    { State.reset with replies := [.returns [], .returns []] }, _, rfl, by decide, by decide⟩

end Sys2Proof.Machine

/-! Every form decodes from its own encoding, and a frame from the head of a stream (spec 30_encoding.md R70 to R83). -/

namespace Sys2Proof

/-- A read request at the head of a stream is read back as its address and count (R72, R74). -/
theorem decodeFrame_readRequest (a : Word) (c : Half) (rest : List Byte) :
    decodeFrame (readRequest a c ++ rest) = .ok (.emaReadRequest a c, rest) := by
  simp only [readRequest, preamble, le4Bytes, le2Bytes, List.cons_append, List.nil_append, decodeFrame,
    le32_le4Bytes, le16_le2Bytes, ne_eq, not_true_eq_false, if_false, if_true]

theorem decode_readRequest (a : Word) (c : Half) :
    decode (.frame (readRequest a c)) = .ok (.emaReadRequest a c) := by
  have hd := decodeFrame_readRequest a c []
  rw [List.append_nil] at hd
  simp only [decode, hd]

/-- A packet of 53 bytes is the row of the report it is classified as (R76). -/
theorem decode_packetBytes (id : Byte) (fields : List Byte) (h : (packetBytes id fields).length = packetSize) :
    decode (.packet (packetBytes id fields)) =
      .ok (packetInstr id (classifyPacket (byteAt (packetBytes id fields)))) :=
  decode_packet _ h

theorem decode_encode_reportMouse (b x y s p : Byte) :
    decode (encode (.reportMouse b x y s p)) = .ok (.reportMouse b x y s p) := by
  rw [encode, decode_packetBytes _ _ rfl, classifyPacket_mouse _ rfl]
  rfl

theorem vector5_cases {α : Type} (v : Vector α 5) : ∃ a b c d e, v = #v[a, b, c, d, e] := by
  refine ⟨v[0], v[1], v[2], v[3], v[4], Vector.ext fun i hi => ?_⟩
  match i, hi with
  | 0, _ | 1, _ | 2, _ | 3, _ | 4, _ => rfl

theorem vector6_cases {α : Type} (v : Vector α 6) : ∃ a b c d e f, v = #v[a, b, c, d, e, f] := by
  refine ⟨v[0], v[1], v[2], v[3], v[4], v[5], Vector.ext fun i hi => ?_⟩
  match i, hi with
  | 0, _ | 1, _ | 2, _ | 3, _ | 4, _ | 5, _ => rfl

theorem decode_encode_reportKeyboard (m : Byte) (k : Vector Byte 6) :
    decode (encode (.reportKeyboard m k)) = .ok (.reportKeyboard m k) := by
  rw [encode, decode_packetBytes _ _ (Laws.EncodingShape.reportKeyboard m k rfl).2, classifyPacket_keyboard _ rfl]
  obtain ⟨k0, k1, k2, k3, k4, k5, rfl⟩ := vector6_cases k
  rfl

/-- A finger block is palm, x and y, with x and y low byte first (R79). -/
theorem packetFinger_eq (p : Nat → Byte) (i : Nat) (f : FingerData) (hpalm : p (4 + 5 * i) = f.palmBits)
    (hx : [p (5 + 5 * i), p (6 + 5 * i)] = le2Bytes f.x) (hy : [p (7 + 5 * i), p (8 + 5 * i)] = le2Bytes f.y) :
    packetFinger p i = f := by
  simp only [le2Bytes, List.cons.injEq, and_true] at hx hy
  rw [packetFinger, hpalm, hx.1, hx.2, hy.1, hy.2, le16_le2Bytes, le16_le2Bytes]

/-- The finger blocks of the Absolute layout are read back in their order (R79). -/
theorem packetFingers_absoluteFields (c : Byte) (f : Vector FingerData 5) (b : Byte) :
    packetFingers (byteAt (packetBytes 0x09 (absoluteFields c f b))) = f := by
  obtain ⟨f0, f1, f2, f3, f4, rfl⟩ := vector5_cases f
  rw [packetFingers, packetFinger_eq _ 0 f0 rfl rfl rfl, packetFinger_eq _ 1 f1 rfl rfl rfl,
    packetFinger_eq _ 2 f2 rfl rfl rfl, packetFinger_eq _ 3 f3 rfl rfl rfl, packetFinger_eq _ 4 f4 rfl rfl rfl]

theorem byteAt_absolute_buttons (c : Byte) (f : Vector FingerData 5) (b : Byte) :
    byteAt (packetBytes 0x09 (absoluteFields c f b)) 29 = b := by
  obtain ⟨f0, f1, f2, f3, f4, rfl⟩ := vector5_cases f
  rfl

theorem decode_encode_reportAbsolute (c : Byte) (f : Vector FingerData 5) (b : Byte) :
    decode (encode (.reportAbsolute c f b)) = .ok (.reportAbsolute c f b) := by
  rw [encode, decode_packetBytes _ _ (Laws.EncodingShape.reportAbsolute c f b rfl).2, classifyPacket_absolute _ rfl,
    packetFingers_absoluteFields, byteAt_absolute_buttons]
  rfl

theorem decode_encode_reportEmpty (id : Byte) (h : (Instr.reportEmpty id).wellFormed = true) :
    decode (encode (.reportEmpty id)) = .ok (.reportEmpty id) := by
  obtain ⟨h6, h8, h9⟩ : ¬id = 0x06 ∧ ¬id = 0x08 ∧ ¬id = 0x09 := by
    simpa [Instr.wellFormed, knownReportId, and_assoc] using h
  rw [encode, decode_packetBytes _ _ rfl, classifyPacket_empty _ h6 h8 h9]
  rfl

theorem decode_encode_command (i : Instr) (w : Word) (h : encode i = .command w) : decode (encode i) = .ok i := by
  rw [h]
  exact decodeCommand_of_encode i w h

/-- Settles O16: a command by the map read in both directions, a frame or a packet by its layout, and a response by
its bound on the bytes delivered. -/
theorem decodeUndoesEncode : Obligations.DecodeUndoesEncode := by
  intro i hwf
  cases i with
  | emaWriteFrame a p => exact decode_writeFrame a p (of_decide_eq_true hwf)
  | emaReadRequest a count => exact decode_readRequest a count
  | emaReadResponse count bytes =>
    have hlen : bytes.length ≤ count.toNat + 3 := of_decide_eq_true (Bool.and_eq_true_iff.1 hwf).2
    rw [encode, decode, decodeResponse, List.take_of_length_le hlen]
  | reportMouse b x y s p => exact decode_encode_reportMouse b x y s p
  | reportKeyboard m k => exact decode_encode_reportKeyboard m k
  | reportAbsolute c f b => exact decode_encode_reportAbsolute c f b
  | reportEmpty id => exact decode_encode_reportEmpty id hwf
  | _ => exact decode_encode_command _ _ rfl

/-- Settles O17: both frames carry their own length (R74). -/
theorem framesAreReadBackFromAStream : Obligations.FramesAreReadBackFromAStream :=
  fun a rest => ⟨fun p hp => decodeFrame_writeFrame a p rest hp, fun c => decodeFrame_readRequest a c rest⟩

/-- Settles O15: closed words and frames, which the decoder evaluates. -/
theorem listedEncodingsDecode : Obligations.ListedEncodingsDecode := by
  refine ⟨rfl, rfl, rfl, rfl, rfl, rfl, rfl, rfl, rfl, rfl⟩

end Sys2Proof

/-! What every step keeps between host accesses (spec 10_state.md R34; 20_memory.md R55; 40_ema_codec.md R118;
60_exceptions.md R216). -/

namespace Sys2Proof.Machine

/-! TRACE holds whole transactions. -/

theorem isWriteFrame_writeFrame (a : Word) (p : List Byte) (hp : p.length ≤ 255) :
    isWriteFrame (writeFrame a p) = true := by
  have hd := decodeFrame_writeFrame a p [] hp
  rw [List.append_nil] at hd
  rw [isWriteFrame, hd]
  exact beq_self_eq_true _

theorem isReadRequest_readRequest (a : Word) (c : Half) : isReadRequest (readRequest a c) (c.toNat + 3) = true := by
  have hd := decodeFrame_readRequest a c []
  rw [List.append_nil] at hd
  simp [isReadRequest, hd]

/-- Whole transactions after whole transactions are whole transactions. -/
theorem traceOk_append (xs ys : List Event) (hx : traceOk xs = true) (hy : traceOk ys = true) :
    traceOk (xs ++ ys) = true := by
  fun_induction traceOk xs with
  | case1 => exact hy
  | case2 bytes rest ih =>
    obtain ⟨hframe, hrest⟩ := Bool.and_eq_true_iff.1 hx
    exact Bool.and_eq_true_iff.2 ⟨hframe, ih hrest⟩
  | case3 bytes n resp rest ih =>
    obtain ⟨hread, hrest⟩ := Bool.and_eq_true_iff.1 hx
    exact Bool.and_eq_true_iff.2 ⟨hread, ih hrest⟩
  | case4 => cases hx
  | case5 => cases hx

theorem traceOk_write (a : Word) (p : List Byte) (hp : p.length ≤ 255) :
    traceOk [.w (writeFrame a p) true] = true := by
  rw [traceOk, isWriteFrame_writeFrame a p hp]
  rfl

theorem traceOk_read (a : Word) (c : Half) (resp : List Byte) (h : resp.length ≤ c.toNat + 3) :
    traceOk [.w (readRequest a c) false, .q (c.toNat + 3) true resp] = true := by
  simp [traceOk, isReadRequest_readRequest, h]

/-! DIAG as the validator leaves it. -/

/-- The four conditions on DIAG, as propositions (R110 to R114). -/
theorem Diag.consistent_iff (d : Diag) : d.consistent = true ↔
    d.delivered.toNat = d.counted.toNat + (if d.csumPresent then 1 else 0) ∧
    d.lenPresent = decide (2 ≤ d.delivered.toNat) ∧
    (d.lenPresent = true ∨ d.declLen.toNat = 0) ∧ (d.csumPresent = true ∨ d.rxCsum.toNat = 0) := by
  simp only [Diag.consistent, Bool.and_eq_true, Bool.or_eq_true, decide_eq_true_eq, beq_iff_eq, and_assoc,
    ← BitVec.toNat_inj]
  rfl

theorem emaReadCore_consistent (c : Nat) (resp : List Byte) (hc : c ≤ 65532) :
    (emaReadCore c resp).diag.consistent = true := by
  obtain ⟨hcounted, hdelivered⟩ := emaReadCore_counts_toNat c resp hc
  rw [Diag.consistent_iff, hcounted, hdelivered, emaReadCore_lenPresent, emaReadCore_csumPresent,
    emaReadCore_declLen_toNat, emaReadCore_rxCsum_toNat]
  simp only [decide_eq_true_eq]
  refine ⟨?counts, trivial, ?declared, ?received⟩
  case counts => split <;> omega
  case declared => exact Decidable.or_iff_not_imp_left.2 fun h => if_neg h
  case received => exact Decidable.or_iff_not_imp_left.2 fun h => if_neg h

/-! The read commands and their destinations. -/

/-- The read commands, each with its count and its destination (R105, R140, R144). -/
def IsRead (i : Instr) (s : State) (count : Half) (store : State → ReadResult → State) : Prop :=
  (i = .emaRead ∧ count = s.count ∧ store = State.storePayload) ∨
    (i = .rd8 ∧ count = 1 ∧ store = State.storeValue8) ∨ (i = .rd16 ∧ count = 2 ∧ store = State.storeValue16)

/-- A destination is VALUE or DATA, and nothing else. -/
theorem IsRead.store_state {i : Instr} {s : State} {count : Half} {store : State → ReadResult → State}
    (h : IsRead i s count store) (u : State) (r : ReadResult) :
    store u r = { u with value := (store u r).value, mem := (store u r).mem } := by
  rcases h with ⟨-, -, rfl⟩ | ⟨-, -, rfl⟩ | ⟨-, -, rfl⟩
  · rw [State.storePayload, State.writeBytes_state]
  · rfl
  · rfl

theorem IsRead.store_wf {i : Instr} {s : State} {count : Half} {store : State → ReadResult → State}
    (h : IsRead i s count store) (u : State) (r : ReadResult) (hu : Memory.wf u.mem = true) :
    Memory.wf (store u r).mem = true := by
  rcases h with ⟨-, -, rfl⟩ | ⟨-, -, rfl⟩ | ⟨-, -, rfl⟩
  · exact State.writeBytes_wf _ u dataBase hu
  · exact hu
  · exact hu

/-! One step from a safe state. -/

/-- A state that differs from a safe one in none of the fields that safety reads. -/
theorem SafeState.of_eq {s t : State} (h : SafeState s) (hphase : t.inflight = s.inflight)
    (hbus : t.busHeld = s.busHeld) (hmem : Memory.wf t.mem = true) (hstatus : legalStatus t.status = true)
    (hdiag : t.diag = s.diag) (htrace : t.trace = s.trace) : SafeState t :=
  ⟨hphase.trans h.noPhase, hbus.trans h.released, hmem, hstatus, hdiag ▸ h.diagnostics, htrace ▸ h.transactions⟩

/-- A command run from a safe state leaves a safe state: a write appends one whole frame, a read a request and its
response, and the other commands touch neither TRACE nor the buffers. -/
theorem SafeState.exec_command {i : Instr} {s t : State} (hs : SafeState s) (hc : i.isCommand = true)
    (h : exec i s = .next t) : SafeState t := by
  obtain ⟨-, -, -, -, hstatus⟩ := (exec_commandStatus i s t hc h).flags
  rcases command_cases i s t hc h with ⟨-, -, rfl⟩ | ⟨p, hp, -, rfl⟩ | ⟨count, store, resp, hi, hcount, -, rfl⟩ |
    ⟨e, -, rfl⟩ | ⟨b, -, rfl⟩
  · exact hs.of_eq rfl rfl hs.memory hstatus rfl rfl
  · refine ⟨?_, rfl, ?_, hstatus, ?_, traceOk_append _ _ hs.transactions (traceOk_write s.addr p hp)⟩
    · exact s.draw_inflight.trans hs.noPhase
    · exact s.draw_mem ▸ hs.memory
    · exact s.draw_diag ▸ hs.diagnostics
  · have hread : IsRead i s count store := hi
    have hcap := Config.dataCap_bounds.2
    rw [hread.store_state] at hstatus ⊢
    refine ⟨?phase, rfl, ?memory, hstatus, emaReadCore_consistent _ _ (by omega), ?transactions⟩
    case phase => simpa using hs.noPhase
    case memory => exact hread.store_wf _ _ (by simpa using hs.memory)
    case transactions =>
      simp only [State.recordResponse_trace, List.append_assoc]
      exact traceOk_append _ _ hs.transactions (traceOk_read s.addr count _ (List.length_take_le _ _))
  · rw [decodeReport_clearFlags] at hstatus ⊢
    exact hs.of_eq rfl rfl hs.memory hstatus rfl rfl
  · exact hs.of_eq rfl rfl hs.memory hstatus rfl rfl

/-- Only a command word decodes to a command, and to nothing else (R83). -/
theorem decode_command_isCommand (w : Word) (i : Instr) (h : decode (.command w) = .ok i) : i.isCommand = true := by
  have he := (decode_command_iff w i).1 h
  cases i with
  | emaWriteFrame | emaReadRequest | emaReadResponse | reportMouse | reportKeyboard | reportAbsolute
  | reportEmpty => cases he
  | _ => rfl

/-- What the host starts is a command (R23). -/
theorem fetchInput_run_isCommand (c : Input) (s u : State) (i : Instr) (h : fetchInput c s = .run i u) :
    i.isCommand = true := by
  cases c with
  | write o w =>
    simp only [fetchInput, fetchWrite] at h
    split at h
    · cases h
    · split at h
      · split at h
        next j hd =>
          cases h
          exact decode_command_isCommand w _ hd
        next => cases h
      · cases h
  | read o dr => cases h
  | reset =>
    simp only [fetchInput, fetchReset] at h
    split at h <;> cases h
  | resetInCommand => cases h

/-- A host write other than of CMD stores into ADDR, COUNT or a window word (R22, R53). -/
theorem hostWriteWord_state (s : State) (o : Nat) (w : Word) :
    hostWriteWord s o w = { s with
      addr := (hostWriteWord s o w).addr, count := (hostWriteWord s o w).count, mem := (hostWriteWord s o w).mem } := by
  simp only [hostWriteWord]
  split
  · rfl
  · split
    · rfl
    · rw [writeWindowWord, State.writeBytes_state]

theorem hostWriteWord_wf (s : State) (o : Nat) (w : Word) (h : Memory.wf s.mem = true) :
    Memory.wf (hostWriteWord s o w).mem = true := by
  simp only [hostWriteWord]
  split
  · exact h
  · split
    · exact h
    · exact State.writeBytes_wf _ s _ h

/-- Settles O53: each condition holds of the reset values. -/
theorem resetStateIsSafe : Obligations.ResetStateIsSafe :=
  fun _ _ => ⟨rfl, rfl, rfl, rfl, rfl, rfl⟩

theorem State.applyReset_safe (s : State) : SafeState s.applyReset :=
  (resetStateIsSafe s.inputs s.replies).of_eq rfl rfl rfl rfl rfl rfl

/-- A host input that starts no command keeps a safe state: the flags become CMD_ERR, a word is stored or read, or
everything is reset. -/
theorem SafeState.fetchInput_next {c : Input} {s t : State} (hs : SafeState s)
    (h : fetchInput c s = .done (.next t)) : SafeState t := by
  rcases fetchInput_eq_next c s t h with rfl | ⟨o, w, -, rfl⟩ | ⟨o, dr, -, rfl⟩ | ⟨-, -, rfl⟩
  · exact hs.of_eq rfl rfl hs.memory rfl rfl rfl
  · have hmem := hostWriteWord_wf s o w hs.memory
    rw [hostWriteWord_state]
    exact hs.of_eq rfl rfl hmem hs.flags rfl rfl
  · exact hs.of_eq rfl rfl hs.memory hs.flags rfl rfl
  · exact s.applyReset_safe

/-- With no phase in progress the next step is the host's (R6). -/
theorem fetch_noPhase (s : State) (h : s.inflight = none) :
    s.inputs = [] ∨ ∃ c rest, s.inputs = c :: rest ∧ fetch s = fetchInput c { s with inputs := rest } := by
  cases hi : s.inputs with
  | nil => exact .inl rfl
  | cons c rest => exact .inr ⟨c, rest, rfl, by simp [fetch, h, hi]⟩

/-- Settles O52: a step from a safe state is idle, a command, or another host input. -/
theorem everyStepKeepsSafeStates : Obligations.EveryStepKeepsSafeStates := by
  intro s t hs h
  rcases fetch_noPhase s hs.noPhase with hi | ⟨c, rest, -, hf⟩
  · rw [step_idle s hs.noPhase hi] at h
    cases h
    exact hs
  · have hrest : SafeState { s with inputs := rest } := hs.of_eq rfl rfl hs.memory hs.flags rfl rfl
    rcases step_eq_next s t h with ⟨i, u, hrun, hexec⟩ | hdone
    · rw [hf] at hrun
      have hu := fetchInput_eq_run c _ u i hrun
      subst hu
      exact hrest.exec_command (fetchInput_run_isCommand c _ _ i hrun) hexec
    · rw [hf] at hdone
      exact hrest.fetchInput_next hdone

end Sys2Proof.Machine

/-! Which commands write which state (spec 10_state.md R22 to R35). -/

namespace Sys2Proof.Machine

/-- What no command writes: the operand registers, the host side's lists, the phase and the index of the life. -/
structure CommandFrame (s t : State) : Prop where
  addr : t.addr = s.addr
  count : t.count = s.count
  inputs : t.inputs = s.inputs
  inflight : t.inflight = s.inflight
  hostReads : t.hostReads = s.hostReads
  epoch : t.epoch = s.epoch

theorem command_frame (i : Instr) (s t : State) (hc : i.isCommand = true) (h : exec i s = .next t) :
    CommandFrame s t := by
  rcases command_cases i s t hc h with ⟨-, -, rfl⟩ | ⟨p, -, -, rfl⟩ | ⟨count, store, resp, hi, -, -, rfl⟩ |
    ⟨e, -, rfl⟩ | ⟨b, -, rfl⟩
  · exact ⟨rfl, rfl, rfl, rfl, rfl, rfl⟩
  · exact ⟨s.draw_addr, s.draw_count, s.draw_inputs, s.draw_inflight, s.draw_hostReads, s.draw_epoch⟩
  · have hread : IsRead i s count store := hi
    rw [hread.store_state]
    constructor <;> simp
  · rw [decodeReport_clearFlags]
    exact ⟨rfl, rfl, rfl, rfl, rfl, rfl⟩
  · exact ⟨rfl, rfl, rfl, rfl, rfl, rfl⟩

/-- What only some commands write. Each clause names the writers of one register, and the bytes of DATA that EMA_READ
writes. -/
structure CommandWrites (i : Instr) (s t : State) : Prop where
  value : t.value ≠ s.value → i = .rd8 ∨ i = .rd16
  diag : t.diag ≠ s.diag → i = .emaRead ∨ i = .rd8 ∨ i = .rd16
  report : t.report ≠ s.report → i = .decodeAny ∨ i = .decodeMouse ∨ i = .decodeKeyboard ∨ i = .decodeAbsolute
  trace : t.trace ≠ s.trace → i = .emaWrite ∨ i = .emaRead ∨ i = .rd8 ∨ i = .rd16 ∨ ∃ v, i = .wr8 v
  buffers : ∀ a, t.readByte a ≠ s.readByte a → i = .emaRead ∧ dataBase ≤ a ∧ a < dataBase + s.count.toNat

theorem command_writes (i : Instr) (s t : State) (hc : i.isCommand = true) (h : exec i s = .next t) :
    CommandWrites i s t := by
  rcases command_cases i s t hc h with ⟨-, -, rfl⟩ | ⟨p, -, hi, rfl⟩ |
    ⟨count, store, resp, ⟨rfl, rfl, rfl⟩ | ⟨rfl, -, rfl⟩ | ⟨rfl, -, rfl⟩, -, -, rfl⟩ | ⟨e, hi, rfl⟩ | ⟨b, -, rfl⟩
  · exact ⟨absurd rfl, absurd rfl, absurd rfl, absurd rfl, fun a => absurd rfl⟩
  · exact ⟨absurd s.draw_value, absurd s.draw_diag, absurd s.draw_report, fun _ => by tauto,
      fun a => absurd (State.readByte_congr s _ s.draw_mem s.draw_epoch a)⟩
  · refine ⟨absurd (by simp [State.storePayload]), fun _ => .inl rfl, absurd (by simp [State.storePayload]),
      fun _ => .inr (.inl rfl), fun a hne => ⟨rfl, ?_⟩⟩
    by_contra hout
    refine hne ((State.readByte_storePayload_outside _ _ _ a (by omega)).trans ?_)
    exact State.readByte_congr s _ (by simp) (by simp) a
  · refine ⟨fun _ => .inl rfl, fun _ => .inr (.inl rfl), absurd (by simp), fun _ => .inr (.inr (.inl rfl)),
      fun a => absurd (State.readByte_congr s _ (by simp) (by simp) a)⟩
  · refine ⟨fun _ => .inr rfl, fun _ => .inr (.inr rfl), absurd (by simp), fun _ => .inr (.inr (.inr (.inl rfl))),
      fun a => absurd (State.readByte_congr s _ (by simp) (by simp) a)⟩
  · rw [decodeReport_clearFlags]
    exact ⟨absurd rfl, absurd rfl, fun _ => by tauto, absurd rfl, fun a => absurd rfl⟩
  · exact ⟨absurd rfl, absurd rfl, absurd rfl, absurd rfl, fun a => absurd rfl⟩

/-- Settles O49: what no command writes, and the writers of the rest. -/
theorem eachRegisterHasItsWriters : Obligations.EachRegisterHasItsWriters := by
  intro s t i hc h
  obtain ⟨haddr, hcount, hinputs, hinflight, hreads, hepoch⟩ := command_frame i s t hc h
  obtain ⟨hvalue, hdiag, hreport, htrace, hbuffers⟩ := command_writes i s t hc h
  exact ⟨haddr, hcount, hinputs, hinflight, hreads, hepoch, hvalue, hdiag, hreport, htrace, hbuffers⟩

end Sys2Proof.Machine

/-! What the transport can stop, and what is refused (spec 60_exceptions.md R223; 20_memory.md R59;
70_reset_and_hazards.md R240). -/

namespace Sys2Proof.Machine

/-! A transport call stops a command with a fault, never with a refusal. -/

theorem busWrite_ne_refused (bytes : List Byte) (stop : Bool) (s : State) (r : Refusal) :
    busWrite bytes stop s ≠ .refused r := by
  cases h : s.draw.1 with
  | returns ack => simp [busWrite_returns bytes stop s ack h]
  | neverReturns => simp [busWrite_hangs bytes stop s h]

theorem readTransaction_hangs_at_request (count : Half) (store : State → ReadResult → State) (s : State)
    (h : s.draw.1 = .neverReturns) : readTransaction count store s = .fault .transportNeverReturns := by
  rw [readTransaction, sendReadRequest, busWrite_hangs _ _ _ h, andThen_fault]

theorem readTransaction_hangs_at_response (count : Half) (store : State → ReadResult → State) (s : State)
    (ack : List Byte) (h1 : s.draw.1 = .returns ack) (h2 : s.draw.2.draw.1 = .neverReturns) :
    readTransaction count store s = .fault .transportNeverReturns := by
  obtain ⟨hsame, -, -⟩ := State.draw_congr s.draw.2 (afterRequest count s) rfl rfl
  rw [readTransaction, sendReadRequest, busWrite_returns _ _ _ ack h1, andThen_next]
  exact busReply_hangs _ _ (afterRequest count s) (hsame.trans h2)

theorem readTransaction_ne_refused (count : Half) (store : State → ReadResult → State) (s : State) (r : Refusal) :
    readTransaction count store s ≠ .refused r := by
  cases h1 : s.draw.1 with
  | neverReturns => simp [readTransaction_hangs_at_request count store s h1]
  | returns ack =>
    cases h2 : s.draw.2.draw.1 with
    | neverReturns => simp [readTransaction_hangs_at_response count store s ack h1 h2]
    | returns resp => simp [readTransaction_returns count store s ack resp h1 h2]

/-- An illegal count is no refusal, but a next state (R84). -/
theorem withPrologue_ne_refused (i : Instr) (body : State → Result) (s : State) (r : Refusal)
    (h : ∀ u, body u ≠ .refused r) : withPrologue i body s ≠ .refused r := by
  cases hl : countLegal i s with
  | true => exact withPrologue_legal i body s hl ▸ h s.clearFlags
  | false => simp [withPrologue_illegal i body s hl, commandError_eq]

theorem exec_command_ne_refused (i : Instr) (s : State) (r : Refusal) (hc : i.isCommand = true) :
    exec i s ≠ .refused r := by
  cases i with
  | emaWrite => exact withPrologue_ne_refused .emaWrite _ s r fun u => busWrite_ne_refused _ _ u r
  | emaRead => exact withPrologue_ne_refused .emaRead _ s r fun u => readTransaction_ne_refused _ _ u r
  | rd8 => exact readTransaction_ne_refused 1 State.storeValue8 s.clearFlags r
  | rd16 => exact readTransaction_ne_refused 2 State.storeValue16 s.clearFlags r
  | wr8 v => exact exec_wr8 v s ▸ busWrite_ne_refused _ _ _ r
  | decodeAny | decodeMouse | decodeKeyboard | decodeAbsolute | qvalid | qcontact | qbutton => exact nofun
  | emaWriteFrame | emaReadRequest | emaReadResponse | reportMouse | reportKeyboard | reportAbsolute
  | reportEmpty => cases hc

/-- Of the host's inputs only a reset is refused: in a command, or while the bus is held inside one (R240). -/
theorem fetchInput_eq_refused (c : Input) (s : State) (r : Refusal) (h : fetchInput c s = .done (.refused r)) :
    r = .resetDuringCommand ∧ (c = .resetInCommand ∨ (c = .reset ∧ s.busHeld = true)) := by
  cases c with
  | write o w =>
    simp only [fetchInput, fetchWrite] at h
    split at h
    · cases h
    · split at h
      · split at h
        · cases h
        · rw [commandError_eq] at h
          cases h
      · cases h
  | read o dr =>
    simp only [fetchInput, hostRead] at h
    split at h <;> cases h
  | reset =>
    simp only [fetchInput, fetchReset] at h
    split at h
    next hb =>
      cases h
      exact ⟨rfl, .inr ⟨rfl, hb⟩⟩
    next => cases h
  | resetInCommand =>
    cases h
    exact ⟨rfl, .inl rfl⟩

theorem step_eq_refused (s : State) (r : Refusal) (h : step s = .refused r) :
    (∃ i u, fetch s = .run i u ∧ exec i u = .refused r) ∨ fetch s = .done (.refused r) := by
  unfold step at h
  cases hf : fetch s with
  | run i u => exact .inl ⟨i, u, rfl, by rwa [hf] at h⟩
  | done o => exact .inr (congrArg Fetched.done (by rwa [hf] at h))

/-- In a safe state the bus is released, so a reset between commands is not refused (R34, R240). -/
theorem SafeState.step_refused {s : State} (hs : SafeState s) {r : Refusal} (h : step s = .refused r) :
    r = .resetDuringCommand ∧ s.inputs.head? = some .resetInCommand := by
  rcases fetch_noPhase s hs.noPhase with hi | ⟨c, rest, hi, hf⟩
  · rw [step_idle s hs.noPhase hi] at h
    cases h
  · rcases step_eq_refused s r h with ⟨i, u, hrun, hexec⟩ | hdone
    · rw [hf] at hrun
      exact absurd hexec (exec_command_ne_refused i u r (fetchInput_run_isCommand c _ u i hrun))
    · rw [hf] at hdone
      obtain ⟨hr, rfl | ⟨-, hheld⟩⟩ := fetchInput_eq_refused c _ r hdone
      · exact ⟨hr, by rw [hi]; rfl⟩
      · exact absurd (hs.released.symm.trans hheld) (by decide)

theorem Reachable.safe {s : State} (h : Reachable s) : SafeState s := by
  induction h with
  | start inputs replies => exact resetStateIsSafe inputs replies
  | next s t _ hstep ih => exact everyStepKeepsSafeStates s t ih hstep

/-- Settles O54: safety by induction over the run, and refusals from safety. -/
theorem reachableStatesAreSafe : Obligations.ReachableStatesAreSafe :=
  fun _ h => ⟨h.safe, fun _ => h.safe.step_refused⟩

/-! Where a call that never returns stops the bus commands. -/

theorem exists_isRead {i : Instr} (s : State) (h : i = .emaRead ∨ i = .rd8 ∨ i = .rd16) :
    ∃ count store, IsRead i s count store := by
  rcases h with rfl | rfl | rfl
  · exact ⟨_, _, .inl ⟨rfl, rfl, rfl⟩⟩
  · exact ⟨_, _, .inr (.inl ⟨rfl, rfl, rfl⟩)⟩
  · exact ⟨_, _, .inr (.inr ⟨rfl, rfl, rfl⟩)⟩

/-- Behind the prologue a read command is its transaction (R105, R140, R144). -/
theorem exec_read {i : Instr} {s : State} {count : Half} {store : State → ReadResult → State}
    (h : IsRead i s count store) (hl : countLegal i s = true) :
    exec i s = readTransaction count store s.clearFlags := by
  rcases h with ⟨rfl, rfl, rfl⟩ | ⟨rfl, rfl, rfl⟩ | ⟨rfl, rfl, rfl⟩
  · exact withPrologue_legal .emaRead _ s hl
  · rfl
  · rfl

/-- Behind the prologue EMA_WRITE is the frame of its payload (R100). -/
theorem exec_emaWrite (s : State) (hl : countLegal .emaWrite s = true) :
    exec .emaWrite s = sendWriteFrame s.addr s.writePayload s.clearFlags :=
  withPrologue_legal .emaWrite _ s hl

theorem State.draw_clearFlags (s : State) : s.clearFlags.draw = (s.draw.1, { s.draw.2 with status := 0 }) :=
  s.draw_status 0

theorem State.draw_draw_clearFlags (s : State) :
    s.clearFlags.draw.2.draw = (s.draw.2.draw.1, { s.draw.2.draw.2 with status := 0 }) :=
  s.draw_draw_status 0

/-- Settles O32: behind the prologue each bus command is one write or one read, which stops where its call does. -/
theorem blockedTransportStopsEveryBusCommand : Obligations.BlockedTransportStopsEveryBusCommand := by
  refine fun s i => ⟨fun hd hl hi => ?first, fun ack h1 h2 hl hi => ?second⟩
  case first =>
    have hd' : s.clearFlags.draw.1 = .neverReturns := by rw [s.draw_clearFlags, hd]
    have hread : (i = .emaRead ∨ i = .rd8 ∨ i = .rd16) → exec i s = .fault .transportNeverReturns := by
      intro hi
      obtain ⟨count, store, hr⟩ := exists_isRead s hi
      rw [exec_read hr hl, readTransaction_hangs_at_request _ _ _ hd']
    rcases hi with rfl | hi | hi | hi | ⟨v, rfl⟩
    · exact (exec_emaWrite s hl).trans (busWrite_hangs _ _ _ hd')
    · exact hread (.inl hi)
    · exact hread (.inr (.inl hi))
    · exact hread (.inr (.inr hi))
    · exact (exec_wr8 v s).trans (busWrite_hangs _ _ _ hd')
  case second =>
    obtain ⟨count, store, hr⟩ := exists_isRead s hi
    rw [exec_read hr hl]
    exact readTransaction_hangs_at_response _ _ _ ack (by rw [s.draw_clearFlags, h1])
      (by rw [s.draw_draw_clearFlags, h2])

end Sys2Proof.Machine

/-! Host accesses, reset and the idle step (spec 20_memory.md R52, R55; 70_reset_and_hazards.md R240). -/

namespace Sys2Proof.Machine

/-! The word of an access: its two low offset bits are ignored (R52). -/

theorem wordOffset_wordStart (o : Nat) : wordOffset (o - o % 4) = wordOffset o := by
  rw [wordOffset_eq, wordOffset_eq]
  omega

theorem wordOffset_eq_of_mem {o b : Nat} (hb : b % 4 = 0) (h1 : b ≤ o) (h2 : o < b + 4) : wordOffset o = b := by
  rw [wordOffset_eq]
  omega

theorem hostReadWord_wordStart (s : State) (o : Nat) (dr : Bool) :
    hostReadWord s (o - o % 4) dr = hostReadWord s o dr := by
  simp only [hostReadWord, wordOffset_wordStart]

theorem hostWriteWord_wordStart (s : State) (o : Nat) (w : Word) :
    hostWriteWord s (o - o % 4) w = hostWriteWord s o w := by
  simp only [hostWriteWord, wordOffset_wordStart]

/-- Between the DIAG registers and REPORT the host reads window words too (R52). -/
theorem hostReadWord_belowReport (s : State) (o : Nat) (dr : Bool) (h1 : 0x020 ≤ o) (h2 : o < 0x100) :
    hostReadWord s o dr = windowWord s (wordOffset o) := by
  have hw := wordOffset_eq o
  simp only [hostReadWord]
  rw [if_neg (by omega), if_neg (by omega), if_neg (by omega), if_neg (by omega), if_neg (by omega),
    if_neg (by omega), if_neg (by omega), if_neg (by omega)]

/-- The word between RPT_CONTACT and the fingers holds no register (R33). -/
theorem reportWord_gap (r : Report) : reportWord r 0x11C = 0 := rfl

/-- An offset whose word holds no register and no buffer byte (R52). -/
def Unmapped (o : Nat) : Prop :=
  (0x020 ≤ o ∧ o < 0x100) ∨ (0x11C ≤ o ∧ o < 0x120) ∨ (0x148 ≤ o ∧ o < 0x800) ∨ (0x838 ≤ o ∧ o < 0x1000) ∨
    0x1000 + Config.dataCap ≤ o - o % 4

theorem Unmapped.noBuffer {o : Nat} (h : Unmapped o) (j : Nat) (hj : j < 4) :
    inBuffer (wordOffset o + j) = false := by
  rw [inBuffer_false_iff, wordOffset_eq]
  unfold Unmapped at h
  omega

theorem hostReadWord_unmapped (s : State) (o : Nat) (dr : Bool) (h : Unmapped o) : hostReadWord s o dr = 0 := by
  have hnone := windowWord_none s (wordOffset o) h.noBuffer
  rcases h with ⟨h1, h2⟩ | ⟨h1, h2⟩ | ⟨h1, h2⟩ | ⟨h1, h2⟩ | h1
  · rw [hostReadWord_belowReport s o dr h1 h2, hnone]
  · have hw : wordOffset o = 0x11C := wordOffset_eq_of_mem (by decide) h1 h2
    rw [hostReadWord_report s o dr (by omega) (by omega), hw, reportWord_gap]
  · rw [hostReadWord_window s o dr h1, hnone]
  · rw [hostReadWord_window s o dr (by omega), hnone]
  · rw [hostReadWord_window s o dr (by omega), hnone]

/-- A write of a word past COUNT without buffer bytes is ignored, be it a read-only register's or nothing's (R52). -/
theorem hostWriteWord_ignored (s : State) (o : Nat) (w : Word) (h : 0x010 ≤ o)
    (hnone : ∀ j, j < 4 → inBuffer (wordOffset o + j) = false) : hostWriteWord s o w = s := by
  rw [hostWriteWord_window s o w h, writeWindowWord_none s _ w hnone]

theorem hostWriteWord_status (s : State) (o : Nat) (w : Word) (h1 : 0x004 ≤ o) (h2 : o < 0x008) :
    hostWriteWord s o w = s := by
  have hw : wordOffset o = 0x004 := wordOffset_eq_of_mem (by decide) h1 h2
  simp only [hostWriteWord, hw]
  exact writeWindowWord_none s 0x004 w fun j hj => (inBuffer_false_iff _).2 (by omega)

/-- Settles O9: no register and no buffer byte lies in the word of such an offset, and a read-only register's word has
no byte to write. -/
theorem unmappedOffsetsReadZeroAndIgnoreWrites : Obligations.UnmappedOffsetsReadZeroAndIgnoreWrites := by
  refine fun s o dr w => ⟨(hostReadWord_wordStart s o dr).symm, (hostWriteWord_wordStart s o w).symm,
    fun h => ⟨hostReadWord_unmapped s o dr h, ?unmapped⟩, ?readOnly⟩
  case unmapped => exact hostWriteWord_ignored s o w (by omega) (Unmapped.noBuffer h)
  case readOnly =>
    rintro (⟨h1, h2⟩ | ⟨h1, h2⟩ | ⟨h1, h2⟩)
    · exact hostWriteWord_status s o w h1 h2
    · refine hostWriteWord_ignored s o w h1 fun j hj => (inBuffer_false_iff _).2 ?_
      rw [wordOffset_eq]
      omega
    · exact hostWriteWord_report s o w h1 h2

/-! What the host reads in the control registers. -/

@[simp] theorem hostReadWord_addr (s : State) (dr : Bool) : hostReadWord s 0x008 dr = s.addr := rfl

@[simp] theorem hostReadWord_count (s : State) (dr : Bool) : hostReadWord s 0x00C dr = s.count.setWidth 32 := rfl

@[simp] theorem hostReadWord_value (s : State) (dr : Bool) : hostReadWord s 0x010 dr = s.value.setWidth 32 := rfl

@[simp] theorem hostReadWord_diagLen (s : State) (dr : Bool) : hostReadWord s 0x014 dr = diagLenWord s.diag := rfl

@[simp] theorem hostReadWord_diagSum (s : State) (dr : Bool) : hostReadWord s 0x018 dr = diagSumWord s.diag := rfl

@[simp] theorem hostReadWord_diagRxn (s : State) (dr : Bool) : hostReadWord s 0x01C dr = diagRxnWord s.diag := rfl

theorem half_setWidth32_toNat (v : Half) : (v.setWidth 32).toNat = v.toNat :=
  BitVec.toNat_setWidth_of_le (by decide)

/-- Settles O4, register by register. -/
theorem hostReadsControlRegisters : Obligations.HostReadsControlRegisters := by
  intro s dr
  refine ⟨hostReadWord_cmd s 0 dr (by decide), hostReadWord_addr s dr, ?count, ?value, ?diagLen, ?diagSum, ?diagRxn⟩
  case count => rw [hostReadWord_count, half_setWidth32_toNat]
  case value => rw [hostReadWord_value, half_setWidth32_toNat]
  case diagLen => rw [hostReadWord_diagLen, diagLenWord, wordOfHalves_toNat]
  case diagSum => rw [hostReadWord_diagSum, diagSumWord_toNat]
  case diagRxn => rw [hostReadWord_diagRxn, diagRxnWord, half_setWidth32_toNat]

/-! The steps of the host. -/

theorem hostRead_inside (o : Nat) (dr : Bool) (s : State) (h : o < hostSpaceSize) :
    hostRead o dr s = .next { s with
      hostReads := s.hostReads ++ [{ offset := o, value := hostReadWord s o dr }] } :=
  if_pos h

theorem hostRead_outside (o : Nat) (dr : Bool) (s : State) (h : hostSpaceSize ≤ o) :
    hostRead o dr s = .fault .offsetOutsideSpace :=
  if_neg (Nat.not_lt.2 h)

/-- A host write past the end of the space (R52). -/
theorem step_write_outside (s : State) (o : Nat) (w : Word) (rest : List Input) (hp : s.inflight = none)
    (hi : s.inputs = .write o w :: rest) (ho : hostSpaceSize ≤ o) : step s = .fault .offsetOutsideSpace := by
  rw [step_input s _ rest hp hi, fetchInput, fetchWrite, if_pos ho]

/-- Settles O6: the word read does not depend on the inputs to come. -/
theorem hostReadHasNoSideEffect : Obligations.HostReadHasNoSideEffect :=
  fun s o dr rest hp hi ho => (step_read s o dr rest hp hi).trans (hostRead_inside o dr _ ho)

theorem hostWriteWord_addr (s : State) (o : Nat) (w : Word) (h1 : 0x008 ≤ o) (h2 : o < 0x00C) :
    hostWriteWord s o w = { s with addr := w } := by
  have hw : wordOffset o = 0x008 := wordOffset_eq_of_mem (by decide) h1 h2
  simp only [hostWriteWord, hw, if_true]

theorem hostWriteWord_count (s : State) (o : Nat) (w : Word) (h1 : 0x00C ≤ o) (h2 : o < 0x010) :
    hostWriteWord s o w = { s with count := w.setWidth 16 } := by
  have hw : wordOffset o = 0x00C := wordOffset_eq_of_mem (by decide) h1 h2
  simp only [hostWriteWord, hw]
  rfl

theorem word_setWidth16_eq_ofNat (w : Word) : w.setWidth 16 = BitVec.ofNat 16 (w.toNat % 65536) := by
  apply BitVec.eq_of_toNat_eq
  simp

/-- Settles O7: a write of either word is a store. -/
theorem hostWriteStoresAddrAndCount : Obligations.HostWriteStoresAddrAndCount := by
  refine fun s o w rest hp hi => ⟨fun h1 h2 => ?addr, fun h1 h2 => ?count⟩
  case addr =>
    rw [step_store s o w rest hp hi (by omega) (by simp only [hostSpaceSize]; omega), hostWriteWord_addr _ o w h1 h2]
  case count =>
    rw [step_store s o w rest hp hi (by omega) (by simp only [hostSpaceSize]; omega), hostWriteWord_count _ o w h1 h2,
      word_setWidth16_eq_ofNat]

/-- Settles O10: a write below the end of the space stores, and an access past it stops. -/
theorem hostAccessesStoreOrStop : Obligations.HostAccessesStoreOrStop :=
  fun s o rest hp => ⟨fun w hi h4 ho => step_store s o w rest hp hi h4 ho,
    fun w hi ho => step_write_outside s o w rest hp hi ho,
    fun dr hi ho => (step_read s o dr rest hp hi).trans (hostRead_outside o dr _ ho)⟩

/-- Settles O11: nothing is fetched. -/
theorem noInputNoChange : Obligations.NoInputNoChange := step_idle

/-! Reset. -/

theorem step_reset (s : State) (rest : List Input) (hp : s.inflight = none) (hi : s.inputs = .reset :: rest)
    (hb : s.busHeld = false) : step s = .next (State.applyReset { s with inputs := rest }) := by
  simp [step_input s _ rest hp hi, fetchInput, fetchReset, hb]

theorem step_reset_held (s : State) (rest : List Input) (hp : s.inflight = none) (hi : s.inputs = .reset :: rest)
    (hb : s.busHeld = true) : step s = .refused .resetDuringCommand := by
  simp [step_input s _ rest hp hi, fetchInput, fetchReset, hb]

theorem step_resetInCommand (s : State) (rest : List Input) (hp : s.inflight = none)
    (hi : s.inputs = .resetInCommand :: rest) : step s = .refused .resetDuringCommand := by
  rw [step_input s _ rest hp hi, fetchInput]

/-- Settles O2: every field is the reset value, and with nothing written every buffer byte is a free value of the new
life. -/
theorem resetTakesEffectOnlyBetweenCommands : Obligations.ResetTakesEffectOnlyBetweenCommands := by
  refine fun s rest hp => ⟨fun hi hb => ?_, step_reset_held s rest hp, step_resetInCommand s rest hp⟩
  refine ⟨_, step_reset s rest hp hi hb, rfl, rfl, rfl, rfl, rfl, rfl, rfl, rfl, rfl, rfl, rfl, rfl, rfl, rfl, rfl,
    fun a ha => ?_⟩
  exact State.readByte_unwritten _ a ha rfl

end Sys2Proof.Machine

/-! The frame and packet forms, and the commands as their phases (spec 30_encoding.md R70 to R79; 40_ema_codec.md R106,
R110 to R118; 20_memory.md R55 to R58). -/

namespace Sys2Proof.Machine

/-! The forms by themselves. -/

/-- A write frame with its preamble written out (R71). -/
theorem writeFrame_eq_preambleBytes (a : Word) (p : List Byte) :
    writeFrame a p = withChecksum (preambleBytes 0x00 a (BitVec.ofNat 16 p.length) ++ p) := by
  rw [writeFrame, preamble_eq]
  rfl

/-- The high length byte of a frame of at most 255 payload bytes is 0 (R71). -/
theorem byteAt_preambleBytes_seven (dir : Byte) (a : Word) (n : Nat) (p : List Byte) (hn : n ≤ 255) :
    byteAt (preambleBytes dir a (BitVec.ofNat 16 n) ++ p) 7 = 0 := by
  have hzero : (BitVec.ofNat 16 n).toNat / 256 = 0 := by
    rw [BitVec.toNat_ofNat]
    omega
  change BitVec.ofNat 8 ((BitVec.ofNat 16 n).toNat / 256) = 0
  rw [hzero]
  rfl

/-- Settles O44: the form is one bus write with stop of the frame. -/
theorem writeFrameFormSendsWithStop : Obligations.WriteFrameFormSendsWithStop := by
  intro s a p ack hp hack body
  have hframe : writeFrame a p = body ++ [BitVec.ofNat 8 (body.map BitVec.toNat).sum] := by
    rw [writeFrame_eq_preambleBytes, withChecksum, sum8_eq_ofNat]
  rw [← hframe]
  exact ⟨busWrite_returns (writeFrame a p) true s ack hack, writeFrame_length a p,
    byteAt_preambleBytes_seven 0x00 a p.length p hp⟩

/-- Settles O45: one bus write without stop of the preamble, and the response phase after it. -/
theorem readRequestFormHoldsTheBus : Obligations.ReadRequestFormHoldsTheBus := by
  intro s a count ack hack bytes
  have hbytes : readRequest a count = bytes := readRequest_eq_preambleBytes a count
  have hsend : sendReadRequest a count s = _ := busWrite_returns (readRequest a count) false s ack hack
  change andThen (sendReadRequest a count s) _ = _
  rw [hsend, andThen_next, hbytes]
  rfl

/-- Settles O46: the response is recorded, then its payload is written into DATA. -/
theorem readResponseFormFillsData : Obligations.ReadResponseFormFillsData := by
  intro s count bytes hc c r
  have hr : r.length ≤ c + 3 := List.length_take_le _ _
  have hexec : exec (.emaReadResponse count bytes) s =
    .next ((s.recordResponse count r).storePayload (emaReadCore c r)) := rfl
  rw [State.recordResponse_eq s count r hr] at hexec
  refine ⟨_, hexec, ?_, ?_, ?_, ?_, fun j hj => ?data, fun a ha => ?others, ?frame⟩
  case data => exact State.readByte_storePayload_inside _ c r j hr hj hc
  case others => exact State.readByte_storePayload_outside _ c r a ha
  case frame =>
    rw [State.storePayload, State.writeBytes_state]
  -- the four fields that the response writes before its payload is stored
  all_goals simp [State.storePayload, c]

/-- A report that is not Empty raises no flag (R161 to R164). -/
theorem State.loadReport_of_ne_empty (s : State) (r : Report) (h : r ≠ .empty) :
    s.loadReport r = { s with report := r } := by
  simp [State.loadReport, beq_eq_false_iff_ne.2 h]

theorem State.loadReport_empty (s : State) :
    s.loadReport .empty = { s with report := .empty, status := s.status ||| 0b000100 } := by
  simp [State.loadReport]

/-- A packet row loads the report it stands for (R76 to R79). -/
theorem exec_packetInstr (id : Byte) (r : Report) (s : State) :
    exec (packetInstr id r) s = .next (s.loadReport r) := by
  cases r <;> rfl

/-- Settles O47: each form loads its report, and Empty alone raises a flag. -/
theorem packetFormsLoadTheReport : Obligations.PacketFormsLoadTheReport := by
  have hload (s : State) (r : Report) (h : r ≠ .empty) : exec (packetInstr 0 r) s = .next { s with report := r } := by
    rw [exec_packetInstr, s.loadReport_of_ne_empty r h]
  refine fun s => ⟨fun b x y scroll pan => hload s (.mouse b x y scroll pan) nofun,
    fun m k => hload s (.keyboard m k) nofun, fun c f b => hload s (.absolute c f b) nofun, fun id => ?_⟩
  exact (exec_packetInstr id .empty s).trans (by rw [s.loadReport_empty])

/-- Settles O33: a bus write that returns appends its event. -/
theorem transactionsUseTheDeviceAddress : Obligations.TransactionsUseTheDeviceAddress :=
  ⟨fun _ _ => rfl, fun _ _ _ => rfl, fun s ack bytes stop hack => ⟨_, busWrite_returns bytes stop s ack hack, rfl⟩⟩

/-! A phase as a step. -/

/-- A draw does not look at the phase. -/
theorem State.draw_setPhase (s : State) (p : Option Phase) :
    State.draw { s with inflight := p } = (s.draw.1, { s.draw.2 with inflight := p }) := by
  unfold State.draw
  cases s.replies <;> rfl

theorem step_frame (s : State) (bytes : List Byte) (i : Instr) (hp : s.inflight = some (.frame bytes))
    (hd : decode (.frame bytes) = .ok i) (hw : i.wellFormed = true) : step s = exec i { s with inflight := none } := by
  rw [step_phase s _ hp, fetchPhase, fetchForm_run _ _ i hd hw]

theorem step_classify (s : State) (i : Instr) (hp : s.inflight = some .classify)
    (hd : decode (.packet s.pktBytes) = .ok i) (hw : i.wellFormed = true) :
    step s = exec i { s with inflight := none } := by
  have hrun : fetchPhase .classify { s with inflight := none } = .run i { s with inflight := none } :=
    fetchForm_run _ _ i hd hw
  rw [step_phase s _ hp, hrun]

theorem step_response (s : State) (count : Half) (resp : List Byte) (i : Instr)
    (hp : s.inflight = some (.awaitResponse count)) (hdraw : s.draw.1 = .returns resp)
    (hd : decode (.response count resp) = .ok i) (hw : i.wellFormed = true) :
    step s = exec i { s.draw.2 with inflight := none } := by
  rw [step_phase s _ hp, fetchPhase, State.draw_setPhase, hdraw]
  simp only [fetchForm_run _ _ i hd hw]

theorem step_response_hangs (s : State) (count : Half) (hp : s.inflight = some (.awaitResponse count))
    (hdraw : s.draw.1 = .neverReturns) : step s = .fault .transportNeverReturns := by
  rw [step_phase s _ hp, fetchPhase, State.draw_setPhase, hdraw]

/-- Settles O13, one clause for each phase. -/
theorem phaseStepRunsItsForm : Obligations.PhaseStepRunsItsForm :=
  fun s i hw => ⟨fun bytes hp hd => step_frame s bytes i hp hd hw, fun hp hd => step_classify s i hp hd hw,
    fun count resp hp hdraw hd => step_response s count resp i hp hdraw hd hw⟩

/-! The commands as their phases in order. -/

/-- A run goes on from a next state, and a stop is its outcome. -/
theorem core_run_succ (k : Nat) (s : State) : andThen (step s) (core.run k) = core.run (k + 1) s := by
  have hstep : core.step s = step s := rfl
  simp only [Host.Core.run, hstep]
  cases step s <;> rfl

theorem step_eq_run_one (s : State) : step s = core.run 1 s := by
  refine Eq.trans ?_ (core_run_succ 0 s)
  cases step s <;> rfl

theorem andThen_step_eq_run_two (s : State) : andThen (step s) step = core.run 2 s :=
  (congrArg (andThen (step s)) (funext step_eq_run_one)).trans (core_run_succ 1 s)

theorem andThen_assoc (o : Result) (k l : State → Result) :
    andThen (andThen o k) l = andThen o fun s => andThen (k s) l := by
  cases o <;> rfl

/-- Only the states that the first part can answer matter for what follows it. -/
theorem andThen_congr {o : Result} {k l : State → Result} (h : ∀ s, o = .next s → k s = l s) :
    andThen o k = andThen o l := by
  cases o with
  | next s => exact h s rfl
  | fault | refused => rfl

/-- Behind the prologue, with this phase next. -/
def State.startPhase (s : State) (p : Phase) : State := { s with status := 0, inflight := some p }

theorem State.startPhase_done {s : State} (h : s.inflight = none) (p : Phase) :
    { s.startPhase p with inflight := none } = s.clearFlags := by
  rw [State.startPhase, State.clearFlags, ← h]

/-- The one phase of a write is its bus write (R57, R100, R142). -/
theorem step_startWriteFrame (s : State) (h : s.inflight = none) (a : Word) (p : List Byte) (hp : p.length ≤ 255) :
    step (s.startPhase (.frame (writeFrame a p))) = sendWriteFrame a p s.clearFlags := by
  rw [step_frame _ _ _ rfl (decode_writeFrame a p hp) (decide_eq_true hp), State.startPhase_done h]
  rfl

/-- The response phase of EMA_READ draws the response and stores it (R107, R117). -/
theorem step_awaitResponse (s : State) (h : s.inflight = none) (count : Half) (hc : count.toNat ≤ Config.dataCap) :
    step { s with inflight := some (.awaitResponse count) } =
      busReply (count.toNat + 3) (fun resp t =>
        .next ((t.recordResponse count resp).storePayload (emaReadCore count.toNat resp))) s := by
  have hdraw := s.draw_setPhase (some (.awaitResponse count))
  cases hd : s.draw.1 with
  | neverReturns =>
    rw [busReply_hangs _ _ s hd]
    exact step_response_hangs _ count rfl (by rw [hdraw, hd])
  | returns resp =>
    have hdone : { s.draw.2 with inflight := none } = s.draw.2 := by
      rw [← h, ← s.draw_inflight]
    have hwf : (Instr.emaReadResponse count (resp.take (count.toNat + 3))).wellFormed = true := by
      simp [Instr.wellFormed, Config.withinDataCap_iff, hc]
    rw [busReply_returns _ _ s resp hd, step_response _ count resp _ rfl (by rw [hdraw, hd]) rfl hwf, hdraw, hdone]
    change Host.Outcome.next _ = _
    rw [List.take_take, Nat.min_self]

/-- The two phases of a read are its transaction (R105 to R107). -/
theorem step_step_startReadRequest (s : State) (h : s.inflight = none) (hc : s.count.toNat ≤ Config.dataCap) :
    andThen (step (s.startPhase (.frame (readRequest s.addr s.count)))) step =
      readTransaction s.count State.storePayload s.clearFlags := by
  have hwf : (Instr.emaReadRequest s.addr s.count).wellFormed = true := (Config.withinDataCap_iff _).2 hc
  have hfirst : step (s.startPhase (.frame (readRequest s.addr s.count))) =
      execEmaReadRequest s.addr s.count s.clearFlags := by
    rw [step_frame _ _ _ rfl (decode_readRequest s.addr s.count) hwf, State.startPhase_done h]
    rfl
  rw [hfirst, execEmaReadRequest, andThen_assoc]
  refine andThen_congr fun t ht => ?_
  have hphase : t.inflight = none := by
    rw [(busWrite_eq_next _ _ _ _ ht).2]
    exact (State.draw_inflight _).trans h
  rw [andThen_next]
  exact step_awaitResponse t hphase s.count hc

theorem byteAt_pktBytes (s : State) (k : Nat) (hk : k < packetSize) : byteAt s.pktBytes k = s.pktByte k := by
  simp [byteAt, State.pktBytes, hk]

/-- A classification stands for a form with a layout, or for an ID without one (R76). -/
theorem packetInstr_wellFormed (p : Nat → Byte) : (packetInstr (p 2) (classifyPacket p)).wellFormed = true := by
  by_cases h6 : p 2 = 0x06
  · rw [classifyPacket_mouse p h6]
    rfl
  by_cases h8 : p 2 = 0x08
  · rw [classifyPacket_keyboard p h8]
    rfl
  by_cases h9 : p 2 = 0x09
  · rw [classifyPacket_absolute p h9]
    rfl
  rw [classifyPacket_empty p h6 h8 h9]
  have hid : knownReportId (p 2) = false := by
    rw [knownReportId, beq_eq_false_iff_ne.2 h6, beq_eq_false_iff_ne.2 h8, beq_eq_false_iff_ne.2 h9]
    rfl
  rw [packetInstr, Instr.wellFormed, hid]
  rfl

/-- The one phase of DECODE ANY loads the classification of PKT (R160). -/
theorem step_startClassify (s : State) (h : s.inflight = none) :
    step (s.startPhase .classify) = .next (s.clearFlags.loadReport (classifyPacket s.pktByte)) := by
  have hbyte : ∀ k, k ≤ 29 → byteAt s.pktBytes k = s.pktByte k := fun k hk =>
    byteAt_pktBytes s k (Nat.lt_of_le_of_lt hk (by decide))
  have hclass : classifyPacket (byteAt s.pktBytes) = classifyPacket s.pktByte :=
    congrArg Prod.fst (decodeResult_congr 0x00 fun k _ => hbyte k)
  have hdecode : decode (.packet s.pktBytes) = .ok (packetInstr (s.pktByte 2) (classifyPacket s.pktByte)) := by
    rw [decode_packet _ s.pktBytes_length, getElem_eq_byteAt, hclass, hbyte 2 (by decide)]
  rw [step_classify (s.startPhase .classify) _ rfl hdecode (packetInstr_wellFormed s.pktByte),
    State.startPhase_done h, exec_packetInstr]

/-- Settles O48: behind the prologue each command does what its phases do. -/
theorem commandsAreTheirPhasesInOrder : Obligations.CommandsAreTheirPhasesInOrder := by
  refine fun s h => ⟨fun hn => ?write, fun v => ?wr8, fun hc => ?read, ?decodeAny⟩
  case write =>
    refine Eq.trans ?_ (step_eq_run_one (s.startPhase (.frame (writeFrame s.addr s.writePayload))))
    rw [exec_emaWrite s ((countLegal_emaWrite_iff s).2 hn),
      step_startWriteFrame s h s.addr s.writePayload (by rwa [s.writePayload_length])]
  case wr8 =>
    refine Eq.trans ?_ (step_eq_run_one (s.startPhase (.frame (writeFrame s.addr [v]))))
    rw [exec_wr8, step_startWriteFrame s h s.addr [v] (by simp)]
  case read =>
    refine Eq.trans ?_ (andThen_step_eq_run_two (s.startPhase (.frame (readRequest s.addr s.count))))
    rw [exec_read (.inl ⟨rfl, rfl, rfl⟩) ((countLegal_emaRead_iff s).2 hc), step_step_startReadRequest s h hc]
  case decodeAny =>
    refine Eq.trans ?_ (step_eq_run_one (s.startPhase .classify))
    rw [exec_decode (.inl ⟨rfl, rfl⟩), step_startClassify s h, decodeReport, if_neg (fun hk => hk.1 rfl)]
    rfl

end Sys2Proof.Machine

/-! A reordered payload (spec 40_ema_codec.md R121). -/

namespace Sys2Proof.Machine

/-- The checksum does not see the order of the bytes (R11). -/
theorem sum8_perm {xs ys : List Byte} (h : xs.Perm ys) : sum8 xs = sum8 ys := by
  rw [sum8_eq_ofNat, sum8_eq_ofNat, (h.map BitVec.toNat).sum_eq]

/-- The flags of a complete response, by its length bytes, its payload and its checksum byte (R115, R116). -/
theorem emaReadCore_whole (b0 b1 cs : Byte) (p : List Byte) :
    (emaReadCore p.length ([b0, b1] ++ p ++ [cs])).csumMismatch = (cs != sum8 ([b0, b1] ++ p)) ∧
      (emaReadCore p.length ([b0, b1] ++ p ++ [cs])).lenMismatch = ((le16 b0 b1).toNat != p.length + 2) := by
  have hbody : ([b0, b1] ++ p).length = p.length + 2 := by simp
  have hbyte : byteAt ([b0, b1] ++ p ++ [cs]) (p.length + 2) = cs := by
    rw [byteAt, List.getD_append_right _ _ _ _ hbody.le, hbody, Nat.sub_self]
    rfl
  obtain ⟨hcsum, hlen⟩ := emaReadCore_complete p.length ([b0, b1] ++ p ++ [cs]) (by simp)
  refine ⟨?_, hlen⟩
  rw [hcsum, hbyte, List.take_left' hbody]

/-- Settles O27: neither the sum nor the length of the payload changes. -/
theorem reorderedPayloadIsNotSeen : Obligations.ReorderedPayloadIsNotSeen := by
  intro b0 b1 cs p q hpq
  obtain ⟨hcsum, hlen⟩ := emaReadCore_whole b0 b1 cs p
  obtain ⟨hcsum', hlen'⟩ := emaReadCore_whole b0 b1 cs q
  rw [← hpq.length_eq] at hcsum' hlen'
  rw [hcsum, hcsum', hlen, hlen', sum8_perm (hpq.append_left [b0, b1])]
  exact ⟨rfl, rfl⟩

end Sys2Proof.Machine

/-! The pseudo-instructions as host accesses (spec 30_encoding.md R86, R87). -/

namespace Sys2Proof.Machine

theorem commandWord_eq_ofNat (op arg : Byte) : commandWord op arg = BitVec.ofNat 32 (op.toNat + 256 * arg.toNat) := by
  rw [← commandWord_toNat, BitVec.ofNat_toNat, BitVec.setWidth_eq]

theorem payloadWord_eq_ofNat (payload : List Byte) (j : Nat) :
    payloadWord payload j = BitVec.ofNat 32 ((byteAt payload j).toNat + 0x100 * (byteAt payload (j + 1)).toNat +
      0x10000 * (byteAt payload (j + 2)).toNat + 0x1000000 * (byteAt payload (j + 3)).toNat) := by
  rw [← le32_toNat, BitVec.ofNat_toNat, BitVec.setWidth_eq]
  rfl

/-- DATA words are one host write each (R86). -/
theorem programInputs_writeData (offset : Nat → Nat) (word : Nat → Word) (qs : List Nat) :
    programInputs (qs.map fun q => .writeData (offset q) (word q)) =
      qs.map fun q => .write (0x1000 + offset q) (word q) := by
  rw [programInputs, List.flatMap_map]
  exact List.map_eq_flatMap.symm

theorem programInputs_append (xs ys : List Stmt) : programInputs (xs ++ ys) = programInputs xs ++ programInputs ys :=
  List.flatMap_append

/-- Settles O55: each statement is one host access, and each command its word. -/
theorem pseudoInstructionsExpandExactly : Obligations.PseudoInstructionsExpandExactly := by
  refine ⟨fun a v => ?wr8, fun a => rfl, fun a => rfl, fun a n => rfl, rfl, fun a payload => ?emaWrite⟩
  case wr8 => exact congrArg (fun word => [Input.write 0x008 a, Input.write 0x000 word]) (commandWord_eq_ofNat 0x04 v)
  case emaWrite =>
    rw [Pseudo.expand, programInputs_append, programInputs_append, programInputs_writeData]
    simp only [payloadWord_eq_ofNat]
    rfl

end Sys2Proof.Machine
